-- ==== Sys2Proof/Word.lean ====
section
/-! DEFINITION. The word types of the hardware: bytes, 16-bit words and 32-bit doublewords. -/

namespace Sys2Proof

/-- One byte: the smallest addressable unit (spec 20_memory.md R44). -/
abbrev Byte := BitVec 8

/-- A 16-bit value: a 16-bit register view, offset or displacement. -/
abbrev Word16 := BitVec 16

/-- A 32-bit value: a general register, `ip`, a linear address, an offset or a displacement. -/
abbrev Word32 := BitVec 32

end Sys2Proof
end

