-- ==== Sys2Proof/Syntax.lean ====
section
/-! DEFINITION. The instructions as data: one constructor of `Instr` per row of spec/opcode_table.json, and the
operand forms of Tables 17-2, 17-3 and 17-4 (spec 41_address_forms.md). -/

namespace Sys2Proof

/-- A general register number 0 to 7, under its 32-bit name (spec 10_state.md R10). The same number names a 16-bit
register (R11) or an 8-bit register (R12) where the operand's width says so (R14). -/
inductive Reg where
  | eax | ecx | edx | ebx | esp | ebp | esi | edi
  deriving DecidableEq, Repr

/-- The six segment register names (spec 10_state.md R15). -/
inductive Seg where
  | cs | ss | ds | es | fs | gs
  deriving DecidableEq, Repr

/-- A value of the operand-size or the address-size attribute (spec 00_scope.md R5). -/
inductive Size where
  | s16 | s32
  deriving DecidableEq, Repr

/-- The width of an operand (spec 10_state.md R14). -/
inductive Width where
  | w8 | w16 | w32
  deriving DecidableEq, Repr

/-- The two recorded values of a repeat prefix (spec 10_state.md R20): F3 stands for REP and for REPE/REPZ. -/
inductive RepPrefix where
  | f3 | f2
  deriving DecidableEq, Repr

/-- The register sums of Table 17-2, by r/m 000 to 111 (spec 41_address_forms.md R103). -/
inductive Base16 where
  | bxSi | bxDi | bpSi | bpDi | si | di | bp | bx
  deriving DecidableEq, Repr

/-- The displacement of a 16-bit form that has a register sum: none (mod 00), disp8 (mod 01), disp16 (mod 10). -/
inductive Disp16 where
  | absent
  | d8 (d : Byte)
  | d16 (d : Word16)
  deriving DecidableEq, Repr

/-- The displacement of a 32-bit form that has a base register: none (mod 00), disp8 (mod 01), disp32 (mod 10). -/
inductive Disp32 where
  | absent
  | d8 (d : Byte)
  | d32 (d : Word32)
  deriving DecidableEq, Repr

/-- The scale factor of the SIB byte, by ss 00 to 11 (spec 30_encoding.md R58). -/
inductive Scale where
  | x1 | x2 | x4 | x8
  deriving DecidableEq, Repr

/-- The memory forms of Tables 17-2, 17-3 and 17-4. In the SIB forms `index` is the register number of the index
field; number 100 (`esp`) stands for "none" (spec 41_address_forms.md R114), and the scale is then without effect. -/
inductive MemForm where
  /-- Table 17-2, mod 00, r/m 110: disp16 alone (R102). -/
  | abs16 (d : Word16)
  /-- Table 17-2, a register sum with its displacement (R101, R103, R104). -/
  | based16 (b : Base16) (d : Disp16)
  /-- Table 17-3, mod 00, r/m 101: disp32 alone (R109). -/
  | abs32 (d : Word32)
  /-- Table 17-3, one register with its displacement, no SIB byte (R108, R110, R111). -/
  | based32 (b : Reg) (d : Disp32)
  /-- A SIB byte with a base register (R112 to R116). -/
  | sib (ss : Scale) (index base : Reg) (d : Disp32)
  /-- A SIB byte with base 101 under mod 00: a disp32 and no base register (R116). -/
  | sibAbs (ss : Scale) (index : Reg) (d : Word32)
  deriving DecidableEq, Repr

/-- The operand a ModR/M byte names by its mod and r/m fields (spec 41_address_forms.md R100, R105). -/
inductive Rm where
  | reg (r : Reg)
  | mem (m : MemForm)
  deriving DecidableEq, Repr

/-- The rows of spec/opcode_table.json. The twelve prefix rows stand for the one prefix byte: an instruction of the
spec is a run of prefix bytes followed by one of the twelve carrier forms (spec 30_encoding.md R50, 40_prefixes.md
R96). An operand-sized immediate is held zero-extended to 32 bits. -/
inductive Instr where
  | rep
  | repe
  | repne
  | lock
  | cs
  | ss
  | ds
  | es
  | fs
  | gs
  | opsize
  | adsize
  | nop
  | movRm8R8 (rm : Rm) (reg : Reg)
  | movRmR (rm : Rm) (reg : Reg)
  | movR8Rm8 (reg : Reg) (rm : Rm)
  | movRRm (reg : Reg) (rm : Rm)
  | lea (reg : Reg) (rm : Rm)
  | movR8Imm (reg : Reg) (imm : Byte)
  | movRImm (reg : Reg) (imm : Word32)
  | movRm8Imm (rm : Rm) (imm : Byte)
  | movRmImm (rm : Rm) (imm : Word32)
  | jmp (rel : Byte)
  | loop (rel : Byte)
  deriving DecidableEq, Repr

/-- Is it one of the eleven prefix bytes (twelve names) of spec 40_prefixes.md R80? -/
def Instr.isPrefix : Instr → Bool
  | .rep | .repe | .repne | .lock | .cs | .ss | .ds | .es | .fs | .gs | .opsize | .adsize => true
  | .nop | .movRm8R8 _ _ | .movRmR _ _ | .movR8Rm8 _ _ | .movRRm _ _ | .lea _ _ | .movR8Imm _ _ | .movRImm _ _
  | .movRm8Imm _ _ | .movRmImm _ _ | .jmp _ | .loop _ => false

/-- The other of the two sizes: what an override prefix selects (spec 40_prefixes.md R91, R92). -/
def Size.other : Size → Size
  | .s16 => .s32
  | .s32 => .s16

/-- The operand width an operand-size attribute selects for an operand that is no byte (spec 10_state.md R14). -/
def Size.width : Size → Width
  | .s16 => .w16
  | .s32 => .w32

/-- The number of bytes of an operand. -/
def Width.bytes : Width → Nat
  | .w8 => 1
  | .w16 => 2
  | .w32 => 4

end Sys2Proof
end

