-- ==== Sys2Proof/Config.lean ====
section
/-! DEFINITION. What is fixed for the machine. The spec's OPEN parameters (spec 92_eei_decisions.md) are not here: they
are fields of `State.env`, so that every statement quantifies over them. No instruction of the spec has an undefined
result, so there is no free value. -/

namespace Sys2Proof

/-- `MaxLen`, the largest number of bytes in one instruction (spec 00_scope.md R5, 30_encoding.md R66, D13). -/
def Config.maxLen : Nat := 15

/-- The number of linear addresses (spec 20_memory.md R31). -/
def Config.addressSpace : Nat := 2 ^ 32

/-- What a byte of memory that is not listed reads as. DESIGN CHOICE, unsafe (log entry 2). -/
def Config.unlistedByte : Byte := 0

/-- The most bytes one prefix or one carrier form without prefixes can take: opcode, ModR/M, SIB, disp32, imm32
(spec 30_encoding.md R50, R60, R64). -/
def Config.maxUnit : Nat := 11

/-- `DefOpSize` at reset. DESIGN CHOICE, unsafe (log entry 3). -/
def Config.resetOpSize : Size := .s16

/-- `DefAddrSize` at reset. DESIGN CHOICE, unsafe (log entry 3). -/
def Config.resetAddrSize : Size := .s16

/-- `END` at reset. DESIGN CHOICE, unsafe (log entry 3). -/
def Config.resetEnd : Word32 := 0xFFFFFFFF

/-- `SegBase` at reset: the set `SB` of spec 95_test_vectors.md. DESIGN CHOICE, unsafe (log entry 3). -/
def Config.resetSegBase : Seg → Word32
  | .cs => 0x00000000
  | .ss => 0x00010000
  | .ds => 0x00020000
  | .es => 0x00030000
  | .fs => 0x00000000
  | .gs => 0x00000000

end Sys2Proof
end

