-- ==== Sys2Proof/Machine/State.lean ====
section
/-! DEFINITION. The state of the machine, as plain data, and the reasons a step can stop. -/

namespace Sys2Proof.Machine

/-- The eight 32-bit general registers (spec 10_state.md R10). The 16-bit and 8-bit names are views of them (R13). -/
structure Gprs where
  eax : Word32
  ecx : Word32
  edx : Word32
  ebx : Word32
  esp : Word32
  ebp : Word32
  esi : Word32
  edi : Word32
  deriving DecidableEq, Repr

/-- The decoder's record (spec 10_state.md R20): empty at an instruction's first byte, discarded at its end. `n` counts
the bytes consumed so far. The record's `opsize` and `adsize` are computed from `opovr`, `adovr` and the defaults
(`opsize`, `adsize` in Operands; log entry 6). -/
structure DecodeRecord where
  rep    : Option RepPrefix
  lock   : Bool
  segovr : Option Seg
  opovr  : Bool
  adovr  : Bool
  n      : Nat
  deriving DecidableEq, Repr

/-- The record as it is created (R20). -/
def DecodeRecord.empty : DecodeRecord :=
  { rep := none, lock := false, segovr := none, opovr := false, adovr := false, n := 0 }

/-- The kinds of access (spec 20_memory.md R32). -/
inductive Access where
  | read | write | fetch
  deriving DecidableEq, Repr

/-- The parameter `SegBase` (spec 00_scope.md R5, 20_memory.md R31): the linear address of offset 0 of each segment. -/
structure SegBases where
  cs : Word32
  ss : Word32
  ds : Word32
  es : Word32
  fs : Word32
  gs : Word32
  deriving DecidableEq, Repr

/-- One part of the parameter `SegAdmit` (spec 20_memory.md R32): accesses of this kind and byte count in this segment
whose first offset lies from `first` to `last` are not admitted. -/
structure Denial where
  seg   : Seg
  kind  : Access
  bytes : Nat
  first : Word32
  last  : Word32
  deriving DecidableEq, Repr

/-- The parameters of spec 00_scope.md R5 that are left OPEN: fixed for a run, changed by no step (70 R170, R177).
`denied` holds `SegAdmit` as data: an access is admitted when no entry denies it. -/
structure Env where
  defOpSize   : Size
  defAddrSize : Size
  segBase     : SegBases
  denied      : List Denial
  endIp       : Word32
  deriving DecidableEq, Repr

/-- The machine: registers (10 R10), instruction pointer (10 R16), memory (20 R31: byte cells in rising order of
linear address, none equal to `Config.unlistedByte`), the decoder's record (10 R20), the linear addresses fetched as
instruction bytes so far in the run (20 R39, rising order) and the parameters (00 R5). -/
structure State where
  regs    : Gprs
  ip      : Word32
  mem     : List Host.Cell
  dec     : DecodeRecord
  fetched : List Nat
  env     : Env
  deriving DecidableEq, Repr

/-- The faults of spec 60_exceptions.md R151. Each carries the `ip` recorded with the mark (R150 (b), 70 R177), which is
the offset of the instruction's first byte. No handler is entered (R154). -/
inductive Fault where
  /-- The environment's `SegAdmit` rejects a read, write or fetch (20_memory.md R32). Safe: the machine stops. -/
  | accessNotAdmitted (ip : Word32) (seg : Seg) (off : Word32) (n : Nat) (kind : Access)
  /-- An instruction of more than `MaxLen` bytes (30_encoding.md R66, 40_prefixes.md R97). Safe: the machine stops. -/
  | instructionTooLong (ip : Word32)
  /-- LEA with mod = 11 (42_carrier_instructions.md R136). Safe: the machine stops. -/
  | invalidOpcode (ip : Word32)
  deriving DecidableEq, Repr

/-- The refusals of spec 60_exceptions.md R151, each with the recorded `ip`, and the host's `notModelled`. A refusal is
safe: nothing is claimed of the run (R150 (c)). -/
inductive Refusal where
  /-- A byte in opcode position, or a digit under it, that the opcode map does not define (42 R139, R140, R144; 30 R70).
  Raised by the fetch of an instruction. Safe. -/
  | unknownOpcode (ip : Word32) (b : Byte)
  /-- A second prefix of one group (40 R94). Raised by the prefix's meaning. Safe. -/
  | redundantPrefix (ip : Word32)
  /-- A repeat prefix on a carrier instruction (42 R143). Safe. -/
  | repOnNonString (ip : Word32)
  /-- A LOCK prefix on a carrier instruction (42 R143). Safe. -/
  | lockNotModelled (ip : Word32)
  /-- Offsets past the top of the offset range, of an operand or of the instruction (20 R32, R36; 10 R16). Safe. -/
  | offsetWrap (ip : Word32)
  /-- A store into the executing instruction's window or into bytes already fetched as code (20 R39). Safe. -/
  | storeIntoCode (ip : Word32)
  /-- The host's reason for an instruction without a meaning; no arm of this model raises it. Safe. -/
  | notModelled (mnemonic : String)
  deriving DecidableEq, Repr

/-- A computation inside a step: a value, a fault or a refusal (spec 60_exceptions.md R150). A fault and a refusal carry
no state: nothing is changed. -/
abbrev Res (α : Type) := Host.Outcome α Fault Refusal

/-- The bases at reset, as data. -/
def SegBases.reset : SegBases :=
  { cs := Config.resetSegBase .cs, ss := Config.resetSegBase .ss, ds := Config.resetSegBase .ds,
    es := Config.resetSegBase .es, fs := Config.resetSegBase .fs, gs := Config.resetSegBase .gs }

/-- The parameters at reset: DESIGN CHOICE, unsafe (log entries 3 and 4). -/
def Env.reset : Env :=
  { defOpSize := Config.resetOpSize, defAddrSize := Config.resetAddrSize, segBase := SegBases.reset, denied := [],
    endIp := Config.resetEnd }

/-- The first state. The spec gives no reset value (10 R22): its first state is the parameter `Init` (70 R170), which any
`State` can be. Registers and `ip` are 0: DESIGN CHOICE, unsafe (log entry 1). -/
def State.reset : State :=
  { regs := { eax := 0, ecx := 0, edx := 0, ebx := 0, esp := 0, ebp := 0, esi := 0, edi := 0 }
    ip := 0
    mem := []
    dec := DecodeRecord.empty
    fetched := []
    env := Env.reset }

end Sys2Proof.Machine
end

