-- ==== Sys2Proof/Machine/Ops.lean ====
section
/-! DEFINITION. The named operations over registers and memory, ending a step in a fault or a refusal, and ending an
instruction. -/

namespace Sys2Proof.Machine

/-! ## Faults and refusals (spec 60_exceptions.md R150)

The spec describes no trap entry (R154) and no return (R155): an exception is the fault's reason and the recorded `ip`,
the state is left as it was, and no handler is entered. -/

/-- Run `f` on the value of `x`; a fault or a refusal of `x` stays as it is. -/
def andThen {α β : Type} (x : Res α) (f : α → Res β) : Res β :=
  match x with
  | .next a => f a
  | .fault r => .fault r
  | .refused r => .refused r

/-- `raise Fault(reason)`: every fault records the `ip` of the instruction's first byte. -/
def raise {α : Type} (s : State) (reason : Word32 → Fault) : Res α := .fault (reason s.ip)

/-- `refuse(reason)`, with the same recorded `ip`. -/
def refuse {α : Type} (s : State) (reason : Word32 → Refusal) : Res α := .refused (reason s.ip)

/-! ## Registers (spec 10_state.md R10 to R13) -/

/-- `r32[i]`, in the register file. -/
def Gprs.get (g : Gprs) : Reg → Word32
  | .eax => g.eax
  | .ecx => g.ecx
  | .edx => g.edx
  | .ebx => g.ebx
  | .esp => g.esp
  | .ebp => g.ebp
  | .esi => g.esi
  | .edi => g.edi

/-- `r32[i] <- v`, in the register file. -/
def Gprs.set (g : Gprs) (r : Reg) (v : Word32) : Gprs :=
  match r with
  | .eax => { g with eax := v }
  | .ecx => { g with ecx := v }
  | .edx => { g with edx := v }
  | .ebx => { g with ebx := v }
  | .esp => { g with esp := v }
  | .ebp => { g with ebp := v }
  | .esi => { g with esi := v }
  | .edi => { g with edi := v }

/-- The 32-bit register of which the 8-bit register of this number is a byte: numbers 4 to 7 are AH, CH, DH, BH (R12, R13). -/
def Reg.byteHome : Reg → Reg
  | .eax | .esp => .eax
  | .ecx | .ebp => .ecx
  | .edx | .esi => .edx
  | .ebx | .edi => .ebx

/-- Is the 8-bit register of this number bits 15:8 of its home (numbers 4 to 7), not bits 7:0? (R13) -/
def Reg.isHighByte : Reg → Bool
  | .eax | .ecx | .edx | .ebx => false
  | .esp | .ebp | .esi | .edi => true

/-- `r32[i]` (R10). -/
def r32 (r : Reg) (s : State) : Word32 := s.regs.get r

/-- `r16[i]`: bits 15:0 of `r32[i]` (R13). -/
def r16 (r : Reg) (s : State) : Word16 := (s.regs.get r).extractLsb' 0 16

/-- `r8[i]`: bits 7:0 or bits 15:8 of its home (R13). -/
def r8 (r : Reg) (s : State) : Byte :=
  if Reg.isHighByte r then (s.regs.get (Reg.byteHome r)).extractLsb' 8 8
  else (s.regs.get (Reg.byteHome r)).extractLsb' 0 8

/-- `r_w[i]`, zero-extended to 32 bits (R13, R14). -/
def readReg (w : Width) (r : Reg) (s : State) : Word32 :=
  match w with
  | .w8 => (r8 r s).zeroExtend 32
  | .w16 => (r16 r s).zeroExtend 32
  | .w32 => r32 r s

/-- What a 32-bit register holds after its view of width `w` is written: the other bits stay (R13). `high` says that
an 8-bit view is bits 15:8. -/
def mergeView (w : Width) (high : Bool) (old v : Word32) : Word32 :=
  match w, high with
  | .w8, false => old.extractLsb' 8 24 ++ v.extractLsb' 0 8
  | .w8, true => old.extractLsb' 16 16 ++ v.extractLsb' 0 8 ++ old.extractLsb' 0 8
  | .w16, _ => old.extractLsb' 16 16 ++ v.extractLsb' 0 16
  | .w32, _ => v

/-- The 32-bit register that a write of `r_w[i]` changes. -/
def viewHome (w : Width) (r : Reg) : Reg :=
  match w with
  | .w8 => Reg.byteHome r
  | .w16 | .w32 => r

/-- `r_w[i] <- v`: the low bits of `v` go into the view, the other bits of the register stay (R13). -/
def writeReg (w : Width) (r : Reg) (v : Word32) (s : State) : State :=
  { s with regs := s.regs.set (viewHome w r) (mergeView w (Reg.isHighByte r) (s.regs.get (viewHome w r)) v) }

/-! ## Memory bytes -/

/-- The byte at an address; what is not listed reads as `Config.unlistedByte`. -/
def memByte : List Host.Cell → Nat → Byte
  | [], _ => Config.unlistedByte
  | (b, v) :: m, a => if b = a then v else memByte m a

/-- Put a cell at its place in rising order. -/
def insertCell (a : Nat) (v : Byte) : List Host.Cell → List Host.Cell
  | [] => [(a, v)]
  | (b, w) :: m => if a < b then (a, v) :: (b, w) :: m else (b, w) :: insertCell a v m

/-- Take the cells of an address out. -/
def eraseCell (a : Nat) : List Host.Cell → List Host.Cell
  | [] => []
  | (b, w) :: m => if b = a then eraseCell a m else (b, w) :: eraseCell a m

/-- `Byte[a] <- v`: the listed form stays canonical, so a byte that reads as an unlisted one is not listed. -/
def setMemByte (a : Nat) (v : Byte) (m : List Host.Cell) : List Host.Cell :=
  if v = Config.unlistedByte then eraseCell a m else insertCell a v (eraseCell a m)

/-- Addresses strictly rising from `lo` on. -/
def risingFrom (lo : Nat) : List Nat → Bool
  | [] => true
  | a :: l => decide (lo ≤ a) && risingFrom (a + 1) l

/-- The canonical form of memory: addresses of the 2^32-byte space, strictly rising, and no cell that reads as an
unlisted one. -/
def Memory.wf (m : List Host.Cell) : Bool :=
  risingFrom 0 (m.map (·.1)) && m.all fun c => decide (c.1 < Config.addressSpace) && c.2 != Config.unlistedByte

/-- The `n` bytes from linear address `a`, least significant first (spec 20_memory.md R33). -/
def readBytes : Nat → Word32 → List Host.Cell → Word32
  | 0, _, _ => 0
  | n + 1, a, m => (memByte m a.toNat).zeroExtend 32 ||| (readBytes n (a + 1) m <<< 8)

/-- Store the `n` low bytes of `v` from linear address `a`, least significant first (R33). -/
def writeBytes : Nat → Word32 → Word32 → List Host.Cell → List Host.Cell
  | 0, _, _, m => m
  | n + 1, a, v, m => writeBytes n (a + 1) (v >>> 8) (setMemByte a.toNat (v.extractLsb' 0 8) m)

/-! ## Linear addresses and admission (spec 20_memory.md R31, R32) -/

/-- `SegBase(seg)`. -/
def SegBases.get (b : SegBases) : Seg → Word32
  | .cs => b.cs
  | .ss => b.ss
  | .ds => b.ds
  | .es => b.es
  | .fs => b.fs
  | .gs => b.gs

/-- `Lin(seg, off)` (R31). -/
def linear (seg : Seg) (off : Word32) (s : State) : Word32 := s.env.segBase.get seg + off

/-- Does this entry deny the access? -/
def Denial.hits (d : Denial) (seg : Seg) (off : Word32) (n : Nat) (kind : Access) : Bool :=
  d.seg == seg && d.kind == kind && d.bytes == n && decide (d.first ≤ off) && decide (off ≤ d.last)

/-- `SegAdmit(seg, off, n, kind)` (R32). -/
def segAdmit (seg : Seg) (off : Word32) (n : Nat) (kind : Access) (s : State) : Bool :=
  !(s.env.denied.any fun d => d.hits seg off n kind)

/-- The top offset of the range a size gives: FFFFh or FFFFFFFFh (R32, R36). -/
def topOffset : Size → Nat
  | .s16 => 0xFFFF
  | .s32 => 0xFFFFFFFF

/-- Refuse an access whose bytes pass the top of the offset range (R32). -/
def checkWrap (ad : Size) (off : Word32) (n : Nat) (s : State) : Res Unit :=
  if off.toNat + n ≤ topOffset ad + 1 then .next () else refuse s .offsetWrap

/-- Put an access to `SegAdmit` (R32). -/
def checkAdmit (seg : Seg) (off : Word32) (n : Nat) (kind : Access) (s : State) : Res Unit :=
  if segAdmit seg off n kind s then .next () else raise s (.accessNotAdmitted · seg off n kind)

/-- `MemRead(seg, off, n)` with an offset of size `ad` (R32, R33), tested in the order of 60_exceptions.md R153. -/
def memRead (seg : Seg) (ad : Size) (off : Word32) (n : Nat) (s : State) : Res Word32 :=
  andThen (checkWrap ad off n s) fun _ =>
  andThen (checkAdmit seg off n .read s) fun _ =>
  .next (readBytes n (linear seg off s) s.mem)

/-- Is the linear address in the `MaxLen`-byte window of the executing instruction, or a byte already fetched as code?
(R39; modulo 2^32, log entry 9) -/
def isCode (a : Word32) (s : State) : Bool :=
  decide ((a - linear .cs s.ip s).toNat < Config.maxLen) || s.fetched.contains a.toNat

/-- Refuse a store of `n` bytes from linear address `a` that touches code (R39). -/
def checkNoCode (a : Word32) (n : Nat) (s : State) : Res Unit :=
  if (List.range n).any fun k => isCode (a + BitVec.ofNat 32 k) s then refuse s .storeIntoCode else .next ()

/-- `MemWrite(seg, off, n, v)` with an offset of size `ad` (R32, R33, R39), tested in the order of R153. -/
def memWrite (seg : Seg) (ad : Size) (off : Word32) (n : Nat) (v : Word32) (s : State) : Res State :=
  andThen (checkWrap ad off n s) fun _ =>
  andThen (checkNoCode (linear seg off s) n s) fun _ =>
  andThen (checkAdmit seg off n .write s) fun _ =>
  .next { s with mem := writeBytes n (linear seg off s) v s.mem }

/-! ## The end of an instruction -/

/-- Put an address into the rising list of fetched addresses. -/
def insertAddr (a : Nat) : List Nat → List Nat
  | [] => [a]
  | b :: l => if a < b then a :: b :: l else if a = b then b :: l else b :: insertAddr a l

/-- Note the `n` bytes from linear address `a` as fetched (spec 20_memory.md R39). -/
def noteFetched : Nat → Word32 → List Nat → List Nat
  | 0, _, l => l
  | n + 1, a, l => noteFetched n (a + 1) (insertAddr a.toNat l)

/-- `ip +_32 n`: the offset after the instruction, whose length `n` the decoder's record holds (10 R16, R20). -/
def nextIp (s : State) : Word32 := s.ip + BitVec.ofNat 32 s.dec.n

/-- End the instruction with `ip <- t`: its bytes are noted as fetched and the decoder's record is discarded
(10 R16, R20; 20 R39). -/
def retireTo (t : Word32) (s : State) : State :=
  { s with ip := t, dec := DecodeRecord.empty, fetched := noteFetched s.dec.n (linear .cs s.ip s) s.fetched }

/-- End an instruction that transfers no control: `ip <- ip +_32 n` (10 R16). -/
def retire (s : State) : State := retireTo (nextIp s) s

/-- Record a prefix: refused when its group is recorded already (40 R94); the length test of the prefix loop follows
(40 R97). The byte itself is counted in `n` already. -/
def recordPrefix (already : Bool) (r : DecodeRecord) (s : State) : Res State :=
  if already then refuse s .redundantPrefix
  else if Config.maxLen ≤ s.dec.n then raise s .instructionTooLong
  else .next { s with dec := r }

/-- The common head of every carrier instruction: a repeat prefix, then a LOCK prefix, is refused (42 R143, 60 R153). -/
def carrier (s : State) (body : Res State) : Res State :=
  if s.dec.rep.isSome then refuse s .repOnNonString
  else if s.dec.lock then refuse s .lockNotModelled
  else body

end Sys2Proof.Machine
end

