-- ==== Sys2Proof/Machine/Operands.lean ====
section
/-! DEFINITION. The size attributes and every operand form: effective addresses, default segments, and reading and
writing the operand a ModR/M byte names (spec 41_address_forms.md). -/

namespace Sys2Proof.Machine

/-- The instruction's operand-size attribute (spec 40_prefixes.md R91). -/
def opsize (s : State) : Size := if s.dec.opovr then s.env.defOpSize.other else s.env.defOpSize

/-- The instruction's address-size attribute (R92). -/
def adsize (s : State) : Size := if s.dec.adovr then s.env.defAddrSize.other else s.env.defAddrSize

/-! ## Effective addresses -/

/-- The register sum of a 16-bit form, modulo 2^16 (R101, R103, R106). -/
def base16 (b : Base16) (s : State) : Word16 :=
  match b with
  | .bxSi => r16 .ebx s + r16 .esi s
  | .bxDi => r16 .ebx s + r16 .edi s
  | .bpSi => r16 .ebp s + r16 .esi s
  | .bpDi => r16 .ebp s + r16 .edi s
  | .si => r16 .esi s
  | .di => r16 .edi s
  | .bp => r16 .ebp s
  | .bx => r16 .ebx s

/-- A 16-bit form's displacement: disp8 is sign-extended to 16 bits (30 R61). -/
def disp16 : Disp16 → Word16
  | .absent => 0
  | .d8 d => d.signExtend 16
  | .d16 d => d

/-- A 32-bit form's displacement: disp8 is sign-extended to 32 bits (30 R61). -/
def disp32 : Disp32 → Word32
  | .absent => 0
  | .d8 d => d.signExtend 32
  | .d32 d => d

/-- `2^ss` (30 R58). -/
def scaleFactor : Scale → Word32
  | .x1 => 1
  | .x2 => 2
  | .x4 => 4
  | .x8 => 8

/-- The scaled index, modulo 2^32; index 100 is none, whatever the scale (R113, R114). -/
def scaledIndex (ss : Scale) (index : Reg) (s : State) : Word32 :=
  if index = .esp then 0 else r32 index s * scaleFactor ss

/-- The offset a memory form computes, a 16-bit one zero-extended (R101 to R117). -/
def offset (m : MemForm) (s : State) : Word32 :=
  match m with
  | .abs16 d => d.zeroExtend 32
  | .based16 b d => (base16 b s + disp16 d).zeroExtend 32
  | .abs32 d => d
  | .based32 b d => r32 b s + disp32 d
  | .sib ss index base d => r32 base s + scaledIndex ss index s + disp32 d
  | .sibAbs ss index d => scaledIndex ss index s + d

/-- The address size of a form: which of FFFFh and FFFFFFFFh its offsets must not pass (20 R32). -/
def formSize : MemForm → Size
  | .abs16 _ | .based16 _ _ => .s16
  | .abs32 _ | .based32 _ _ | .sib _ _ _ _ | .sibAbs _ _ _ => .s32

/-- The default segment of a 16-bit register sum: SS where BP takes part (R107). -/
def baseSeg16 : Base16 → Seg
  | .bpSi | .bpDi | .bp => .ss
  | .bxSi | .bxDi | .si | .di | .bx => .ds

/-- The default segment of a 32-bit base register: SS for ESP and EBP (R118). -/
def baseSeg32 : Reg → Seg
  | .esp | .ebp => .ss
  | .eax | .ecx | .edx | .ebx | .esi | .edi => .ds

/-- The default segment of a form (R107, R118). -/
def defaultSeg : MemForm → Seg
  | .abs16 _ => .ds
  | .based16 b _ => baseSeg16 b
  | .abs32 _ => .ds
  | .based32 b _ => baseSeg32 b
  | .sib _ _ base _ => baseSeg32 base
  | .sibAbs _ _ _ => .ds

/-- The segment actually used: the override where there is one (R119, 40 R93). -/
def segment (m : MemForm) (s : State) : Seg := s.dec.segovr.getD (defaultSeg m)

/-! ## Reading and writing an r/m operand -/

/-- The value of an r/m operand of width `w`, zero-extended (42, `read_rm`). -/
def readRm (w : Width) (rm : Rm) (s : State) : Res Word32 :=
  match rm with
  | .reg r => .next (readReg w r s)
  | .mem m => memRead (segment m s) (formSize m) (offset m s) w.bytes s

/-- Store the low bits of `v` into an r/m operand of width `w` (42, `write_rm`). The address is computed from the
registers of the state given (R121). -/
def writeRm (w : Width) (rm : Rm) (v : Word32) (s : State) : Res State :=
  match rm with
  | .reg r => .next (writeReg w r v s)
  | .mem m => memWrite (segment m s) (formSize m) (offset m s) w.bytes v s

/-- The offset of a memory form; a register operand is an invalid opcode (42 R136). -/
def leaOffset (rm : Rm) (s : State) : Res Word32 :=
  match rm with
  | .reg _ => raise s .invalidOpcode
  | .mem m => .next (offset m s)

/-- A relative jump's target: the next instruction's offset plus the sign-extended displacement, masked to 16 bits when
the operand size is 16 (42 R141, R142). -/
def branchTarget (rel : Byte) (s : State) : Word32 :=
  match opsize s with
  | .s16 => (nextIp s + rel.signExtend 32) &&& 0x0000FFFF
  | .s32 => nextIp s + rel.signExtend 32

end Sys2Proof.Machine
end

