-- ==== Sys2Proof/Machine/Flags.lean ====
section
/-! DEFINITION. The spec names no flag and no flags register (10_state.md R17), and no carrier instruction reads or writes
one (42_carrier_instructions.md R130 (d)), so State holds none. The one condition an instruction tests is LOOP's count. -/

namespace Sys2Proof.Machine

/-- LOOP's count after the decrement: CX minus 1 modulo 2^16, or ECX minus 1 modulo 2^32, by the address size
(42 R142), zero-extended. -/
def loopCount (s : State) : Word32 :=
  match adsize s with
  | .s16 => (r16 .ecx s - 1).zeroExtend 32
  | .s32 => r32 .ecx s - 1

/-- LOOP jumps when the count after the decrement is not zero (42 R142). -/
def loopTaken (s : State) : Bool := loopCount s != 0

end Sys2Proof.Machine
end

