-- ==== Sys2Proof/Machine/Control.lean ====
section
/-! DEFINITION. The meanings of NOP, JMP rel8 and LOOP rel8 (spec 42_carrier_instructions.md R131, R141, R142). -/

namespace Sys2Proof.Machine

/-- NOP (90; R131). -/
def execNop (s : State) : Res State := carrier s (.next (retire s))

/-- JMP rel8 (EB cb; R141). -/
def execJmp (rel : Byte) (s : State) : Res State := carrier s (.next (retireTo (branchTarget rel s) s))

/-- LOOP rel8 (E2 cb; R142): the count register of the address size is decremented first and tested after. -/
def execLoop (rel : Byte) (s : State) : Res State :=
  carrier s (.next (retireTo (if loopTaken s then branchTarget rel s else nextIp s)
    (writeReg (adsize s).width .ecx (loopCount s) s)))

end Sys2Proof.Machine
end

