-- ==== Sys2Proof/Machine/Moves.lean ====
section
/-! DEFINITION. The meanings of the MOV forms and of LEA (spec 42_carrier_instructions.md R132 to R140). -/

namespace Sys2Proof.Machine

/-- Store register `reg` into the r/m operand, at width `w`. -/
def storeReg (w : Width) (rm : Rm) (reg : Reg) (s : State) : Res State :=
  carrier s (andThen (writeRm w rm (readReg w reg s) s) fun t => .next (retire t))

/-- Load register `reg` from the r/m operand, at width `w`: the operand is read before the register is written
(41 R121). -/
def loadReg (w : Width) (reg : Reg) (rm : Rm) (s : State) : Res State :=
  carrier s (andThen (readRm w rm s) fun v => .next (retire (writeReg w reg v s)))

/-- MOV r/m8, r8 (88 /r; R132). -/
def execMovRm8R8 (rm : Rm) (reg : Reg) (s : State) : Res State := storeReg .w8 rm reg s

/-- MOV r/m16, r16 and MOV r/m32, r32 (89 /r; R133). -/
def execMovRmR (rm : Rm) (reg : Reg) (s : State) : Res State := storeReg (opsize s).width rm reg s

/-- MOV r8, r/m8 (8A /r; R134). -/
def execMovR8Rm8 (reg : Reg) (rm : Rm) (s : State) : Res State := loadReg .w8 reg rm s

/-- MOV r16, r/m16 and MOV r32, r/m32 (8B /r; R135). -/
def execMovRRm (reg : Reg) (rm : Rm) (s : State) : Res State := loadReg (opsize s).width reg rm s

/-- LEA r16, m and LEA r32, m (8D /r; R136): the offset, without an access; the segment is ignored. -/
def execLea (reg : Reg) (rm : Rm) (s : State) : Res State :=
  carrier s (andThen (leaOffset rm s) fun v => .next (retire (writeReg (opsize s).width reg v s)))

/-- MOV r8, imm8 (B0+r ib; R137). -/
def execMovR8Imm (reg : Reg) (imm : Byte) (s : State) : Res State :=
  carrier s (.next (retire (writeReg .w8 reg (imm.zeroExtend 32) s)))

/-- MOV r16, imm16 and MOV r32, imm32 (B8+r iw/id; R138). -/
def execMovRImm (reg : Reg) (imm : Word32) (s : State) : Res State :=
  carrier s (.next (retire (writeReg (opsize s).width reg imm s)))

/-- MOV r/m8, imm8 (C6 /0 ib; R139). The digit is tested by the decoder. -/
def execMovRm8Imm (rm : Rm) (imm : Byte) (s : State) : Res State :=
  carrier s (andThen (writeRm .w8 rm (imm.zeroExtend 32) s) fun t => .next (retire t))

/-- MOV r/m16, imm16 and MOV r/m32, imm32 (C7 /0 iw/id; R140). The digit is tested by the decoder. -/
def execMovRmImm (rm : Rm) (imm : Word32) (s : State) : Res State :=
  carrier s (andThen (writeRm (opsize s).width rm imm s) fun t => .next (retire t))

end Sys2Proof.Machine
end

