-- ==== Sys2Proof/Machine/Prefixes.lean ====
section
/-! DEFINITION. The meanings of the twelve prefix names (spec 40_prefixes.md): each records its value in the decoder's
record; the rest of the instruction follows in the same step (`runInstr` in Fetch). -/

namespace Sys2Proof.Machine

/-- REP: `rep <- F3` (R81). -/
def execRep (s : State) : Res State :=
  recordPrefix s.dec.rep.isSome { s.dec with rep := some .f3 } s

/-- REPE/REPZ: `rep <- F3`, exactly as REP (R82). -/
def execRepe (s : State) : Res State :=
  recordPrefix s.dec.rep.isSome { s.dec with rep := some .f3 } s

/-- REPNE/REPNZ: `rep <- F2` (R83). -/
def execRepne (s : State) : Res State :=
  recordPrefix s.dec.rep.isSome { s.dec with rep := some .f2 } s

/-- LOCK: `lock <- true` (R84). -/
def execLock (s : State) : Res State :=
  recordPrefix s.dec.lock { s.dec with lock := true } s

/-- What the six segment overrides share: `segovr <- seg` (R85 to R90). -/
def recordSegment (seg : Seg) (s : State) : Res State :=
  recordPrefix s.dec.segovr.isSome { s.dec with segovr := some seg } s

/-- CS segment override (R85). -/
def execCs (s : State) : Res State := recordSegment .cs s

/-- SS segment override (R86). -/
def execSs (s : State) : Res State := recordSegment .ss s

/-- DS segment override (R87). -/
def execDs (s : State) : Res State := recordSegment .ds s

/-- ES segment override (R88). -/
def execEs (s : State) : Res State := recordSegment .es s

/-- FS segment override (R89). -/
def execFs (s : State) : Res State := recordSegment .fs s

/-- GS segment override (R90). -/
def execGs (s : State) : Res State := recordSegment .gs s

/-- Operand-size override: `opovr <- true` (R91). -/
def execOpsize (s : State) : Res State :=
  recordPrefix s.dec.opovr { s.dec with opovr := true } s

/-- Address-size override: `adovr <- true` (R92). -/
def execAdsize (s : State) : Res State :=
  recordPrefix s.dec.adovr { s.dec with adovr := true } s

end Sys2Proof.Machine
end

