-- ==== Sys2Proof/Machine/Dispatch.lean ====
section
/-! DEFINITION. One arm per constructor of `Instr`, each one call of that instruction's meaning. -/

namespace Sys2Proof.Machine

def exec (i : Instr) (s : State) : Host.Outcome State Fault Refusal :=
  match i with
  | .rep => Sys2Proof.Machine.execRep s
  | .repe => Sys2Proof.Machine.execRepe s
  | .repne => Sys2Proof.Machine.execRepne s
  | .lock => Sys2Proof.Machine.execLock s
  | .cs => Sys2Proof.Machine.execCs s
  | .ss => Sys2Proof.Machine.execSs s
  | .ds => Sys2Proof.Machine.execDs s
  | .es => Sys2Proof.Machine.execEs s
  | .fs => Sys2Proof.Machine.execFs s
  | .gs => Sys2Proof.Machine.execGs s
  | .opsize => Sys2Proof.Machine.execOpsize s
  | .adsize => Sys2Proof.Machine.execAdsize s
  | .nop => Sys2Proof.Machine.execNop s
  | .movRm8R8 rm reg => Sys2Proof.Machine.execMovRm8R8 rm reg s
  | .movRmR rm reg => Sys2Proof.Machine.execMovRmR rm reg s
  | .movR8Rm8 reg rm => Sys2Proof.Machine.execMovR8Rm8 reg rm s
  | .movRRm reg rm => Sys2Proof.Machine.execMovRRm reg rm s
  | .lea reg rm => Sys2Proof.Machine.execLea reg rm s
  | .movR8Imm reg imm => Sys2Proof.Machine.execMovR8Imm reg imm s
  | .movRImm reg imm => Sys2Proof.Machine.execMovRImm reg imm s
  | .movRm8Imm rm imm => Sys2Proof.Machine.execMovRm8Imm rm imm s
  | .movRmImm rm imm => Sys2Proof.Machine.execMovRmImm rm imm s
  | .jmp rel => Sys2Proof.Machine.execJmp rel s
  | .loop rel => Sys2Proof.Machine.execLoop rel s

end Sys2Proof.Machine
end

