-- ==== Sys2Proof/WellFormed.lean ====
section
/-! DEFINITION. Which instructions have an encoding under given operand-size and address-size attributes. -/

namespace Sys2Proof

/-- A 16-bit form exists in Table 17-2: there is no [BP] without a displacement (spec 41_address_forms.md R101). -/
def Base16.wf (b : Base16) (d : Disp16) : Bool :=
  !(b == .bp && d == .absent)

/-- A 32-bit form without SIB exists in Table 17-3: r/m 100 announces a SIB byte, and there is no [EBP] without a
displacement (R108). -/
def Reg.wfBase (b : Reg) (d : Disp32) : Bool :=
  b != .esp && !(b == .ebp && d == .absent)

/-- A SIB form with a base register exists: base 101 under mod 00 is no base (R116). -/
def Reg.wfSibBase (b : Reg) (d : Disp32) : Bool :=
  !(b == .ebp && d == .absent)

/-- The form belongs to the table the address size selects (R100) and has a row there. -/
def MemForm.wf (ad : Size) : MemForm → Bool
  | .abs16 _ => ad == .s16
  | .based16 b d => ad == .s16 && b.wf d
  | .abs32 _ => ad == .s32
  | .based32 b d => ad == .s32 && b.wfBase d
  | .sib _ _ b d => ad == .s32 && b.wfSibBase d
  | .sibAbs _ _ _ => ad == .s32

/-- A register operand exists under both address sizes (R105). -/
def Rm.wf (ad : Size) : Rm → Bool
  | .reg _ => true
  | .mem m => m.wf ad

/-- An operand-sized immediate fits in 2 bytes when the operand size is 16 (spec 30_encoding.md R64). -/
def immWf (op : Size) (imm : Word32) : Bool :=
  op == .s32 || decide (imm.toNat < 65536)

/-- The instruction has an encoding under operand size `op` and address size `ad`. -/
def Instr.wf (op ad : Size) : Instr → Bool
  | .rep | .repe | .repne | .lock | .cs | .ss | .ds | .es | .fs | .gs | .opsize | .adsize | .nop => true
  | .movRm8R8 rm _ => rm.wf ad
  | .movRmR rm _ => rm.wf ad
  | .movR8Rm8 _ rm => rm.wf ad
  | .movRRm _ rm => rm.wf ad
  | .lea _ rm => rm.wf ad
  | .movR8Imm _ _ => true
  | .movRImm _ imm => immWf op imm
  | .movRm8Imm rm _ => rm.wf ad
  | .movRmImm rm imm => rm.wf ad && immWf op imm
  | .jmp _ => true
  | .loop _ => true

end Sys2Proof
end

