-- ==== Sys2Proof/Decode.lean ====
section
/-! DEFINITION. From bytes to instructions (spec 30_encoding.md R50 to R74, 40_prefixes.md R80 to R97): a decoder that is
total on any bytes and rejects by name, and an encoder written from the same tables. -/

namespace Sys2Proof

/-- Why the decoder gives no instruction: it needs a byte beyond those it was given, or the opcode (or the digit under
it) is not one `OpcodeMap` defines (spec 30_encoding.md R70); the byte is the first opcode byte. -/
inductive DecodeStop where
  | truncated
  | unknownOpcode (b : Byte)
  deriving DecidableEq, Repr

/-- A decoding of the front of a list of bytes: the value read and the bytes left. -/
abbrev Decoded (α : Type) := Except DecodeStop (α × List Byte)

/-- Apply a function to what was read. -/
def Decoded.map {α β : Type} (f : α → β) : Decoded α → Decoded β
  | .ok (a, rest) => .ok (f a, rest)
  | .error e => .error e

/-- Read further where the first reading left off. -/
def Decoded.bind {α β : Type} (x : Decoded α) (f : α → List Byte → Decoded β) : Decoded β :=
  match x with
  | .ok (a, rest) => f a rest
  | .error e => .error e

/-! ## Register numbers and small fields -/

/-- The register a 3-bit number names (spec 10_state.md R10). -/
def Reg.ofNum (n : BitVec 3) : Reg :=
  match n.toNat with
  | 0 => .eax
  | 1 => .ecx
  | 2 => .edx
  | 3 => .ebx
  | 4 => .esp
  | 5 => .ebp
  | 6 => .esi
  | _ => .edi

/-- The number of a register (spec 10_state.md R10). -/
def Reg.num : Reg → BitVec 3
  | .eax => 0#3
  | .ecx => 1#3
  | .edx => 2#3
  | .ebx => 3#3
  | .esp => 4#3
  | .ebp => 5#3
  | .esi => 6#3
  | .edi => 7#3

/-- The register sum of Table 17-2 for an r/m value (spec 41_address_forms.md R103). -/
def Base16.ofNum (n : BitVec 3) : Base16 :=
  match n.toNat with
  | 0 => .bxSi
  | 1 => .bxDi
  | 2 => .bpSi
  | 3 => .bpDi
  | 4 => .si
  | 5 => .di
  | 6 => .bp
  | _ => .bx

/-- The r/m value of a register sum (R103). -/
def Base16.num : Base16 → BitVec 3
  | .bxSi => 0#3
  | .bxDi => 1#3
  | .bpSi => 2#3
  | .bpDi => 3#3
  | .si => 4#3
  | .di => 5#3
  | .bp => 6#3
  | .bx => 7#3

/-- The scale factor of an ss field (spec 30_encoding.md R58). -/
def Scale.ofNum (n : BitVec 2) : Scale :=
  match n.toNat with
  | 0 => .x1
  | 1 => .x2
  | 2 => .x4
  | _ => .x8

/-- The ss field of a scale factor (R58). -/
def Scale.num : Scale → BitVec 2
  | .x1 => 0#2
  | .x2 => 1#2
  | .x4 => 2#2
  | .x8 => 3#2

/-- Bits 7:6 of a ModR/M byte (mod) or of a SIB byte (ss) (spec 30_encoding.md R54, R57). -/
def topField (b : Byte) : BitVec 2 := b.extractLsb' 6 2

/-- Bits 5:3 of a ModR/M byte (reg) or of a SIB byte (index) (R54, R57). -/
def midField (b : Byte) : BitVec 3 := b.extractLsb' 3 3

/-- Bits 2:0 of a ModR/M byte (r/m), of a SIB byte (base) or of an opcode byte (R54, R57; 42 R137). -/
def lowField (b : Byte) : BitVec 3 := b.extractLsb' 0 3

/-- The ModR/M or SIB byte with the three fields given (spec 30_encoding.md R54, R57, R71). -/
def fieldByte (top : BitVec 2) (mid low : BitVec 3) : Byte := top ++ mid ++ low

/-! ## Multi-byte fields, least significant byte first (spec 30_encoding.md R62) -/

/-- Read one byte. -/
def takeByte : List Byte → Decoded Byte
  | b :: rest => .ok (b, rest)
  | [] => .error .truncated

/-- Read a 16-bit field. -/
def takeWord16 : List Byte → Decoded Word16
  | b0 :: b1 :: rest => .ok (b1 ++ b0, rest)
  | _ => .error .truncated

/-- Read a 32-bit field. -/
def takeWord32 : List Byte → Decoded Word32
  | b0 :: b1 :: b2 :: b3 :: rest => .ok (b3 ++ b2 ++ b1 ++ b0, rest)
  | _ => .error .truncated

/-- Read an operand-sized immediate, zero-extended (spec 30_encoding.md R64). -/
def takeImm (op : Size) (bs : List Byte) : Decoded Word32 :=
  match op with
  | .s16 => (takeWord16 bs).map (fun w => w.zeroExtend 32)
  | .s32 => takeWord32 bs

/-- The bytes of a 16-bit field. -/
def bytes16 (w : Word16) : List Byte := [w.extractLsb' 0 8, w.extractLsb' 8 8]

/-- The bytes of a 32-bit field. -/
def bytes32 (w : Word32) : List Byte :=
  [w.extractLsb' 0 8, w.extractLsb' 8 8, w.extractLsb' 16 8, w.extractLsb' 24 8]

/-- The bytes of an operand-sized immediate. -/
def immBytes (op : Size) (imm : Word32) : List Byte :=
  match op with
  | .s16 => bytes16 (imm.setWidth 16)
  | .s32 => bytes32 imm

/-! ## The ModR/M and SIB bytes -/

/-- The displacement of a 16-bit form with a register sum, by mod 00, 01, 10 (spec 30_encoding.md R59). -/
def takeDisp16 (md : BitVec 2) (bs : List Byte) : Decoded Disp16 :=
  match md.toNat with
  | 0 => .ok (.absent, bs)
  | 1 => (takeByte bs).map .d8
  | _ => (takeWord16 bs).map .d16

/-- The displacement of a 32-bit form with a base register, by mod 00, 01, 10 (spec 30_encoding.md R60). -/
def takeDisp32 (md : BitVec 2) (bs : List Byte) : Decoded Disp32 :=
  match md.toNat with
  | 0 => .ok (.absent, bs)
  | 1 => (takeByte bs).map .d8
  | _ => (takeWord32 bs).map .d32

/-- Does a SIB byte follow the ModR/M byte? (spec 30_encoding.md R56) -/
def sibFollows (ad : Size) (m : Byte) : Bool :=
  ad == .s32 && topField m != 3#2 && lowField m == 4#3

/-- The memory form of a ModR/M byte under a 16-bit address size (Table 17-2; R101 to R104). -/
def decodeMem16 (md : BitVec 2) (rm : BitVec 3) (bs : List Byte) : Decoded MemForm :=
  if md = 0#2 ∧ rm = 6#3 then (takeWord16 bs).map .abs16
  else (takeDisp16 md bs).map (.based16 (Base16.ofNum rm))

/-- The memory form of a SIB byte under mod `md` (Table 17-4; R112 to R116). -/
def decodeSib (md : BitVec 2) (s : Byte) (bs : List Byte) : Decoded MemForm :=
  let ss := Scale.ofNum (topField s)
  let index := Reg.ofNum (midField s)
  let base := Reg.ofNum (lowField s)
  if md = 0#2 ∧ lowField s = 5#3 then (takeWord32 bs).map (.sibAbs ss index)
  else (takeDisp32 md bs).map (.sib ss index base)

/-- The memory form of a ModR/M byte without SIB under a 32-bit address size (Table 17-3; R108 to R111). -/
def decodeMem32 (md : BitVec 2) (rm : BitVec 3) (bs : List Byte) : Decoded MemForm :=
  if md = 0#2 ∧ rm = 5#3 then (takeWord32 bs).map .abs32
  else (takeDisp32 md bs).map (.based32 (Reg.ofNum rm))

/-- The r/m operand of ModR/M byte `m`, the bytes after it given (spec 41_address_forms.md R100, R105). -/
def decodeRm (ad : Size) (m : Byte) (bs : List Byte) : Decoded Rm :=
  if topField m = 3#2 then .ok (.reg (Reg.ofNum (lowField m)), bs)
  else match ad with
    | .s16 => (decodeMem16 (topField m) (lowField m) bs).map .mem
    | .s32 =>
      if sibFollows .s32 m then
        ((takeByte bs).bind fun s rest => decodeSib (topField m) s rest).map .mem
      else (decodeMem32 (topField m) (lowField m) bs).map .mem

/-- A ModR/M byte with what follows it: the reg field's register and the r/m operand. -/
def takeModRm (ad : Size) (bs : List Byte) : Decoded (Reg × Rm) :=
  (takeByte bs).bind fun m rest => (decodeRm ad m rest).map fun rm => (Reg.ofNum (midField m), rm)

/-- A ModR/M byte whose reg field is the digit 0 of opcode `b`: another digit is undefined, and is refused before a
SIB byte or displacement is fetched (spec 30_encoding.md R65; 42 R139, R140). -/
def takeDigit0 (b : Byte) (ad : Size) (bs : List Byte) : Decoded Rm :=
  (takeByte bs).bind fun m rest =>
    if midField m = 0#3 then decodeRm ad m rest else .error (.unknownOpcode b)

/-! ## The opcode map (spec 42_carrier_instructions.md R130; 30_encoding.md R69) -/

/-- What a byte in the position before or at the opcode announces. -/
inductive OpKind where
  | rep | repne | lock | cs | ss | ds | es | fs | gs | opsize | adsize
  | nop | movRm8R8 | movRmR | movR8Rm8 | movRRm | lea | movR8Imm | movRImm | movRm8Imm | movRmImm | jmp | loop
  /-- 0Fh, the first byte of a two-byte opcode (30_encoding.md R52); the map defines none. -/
  | escape
  deriving DecidableEq, Repr

/-- One row of the opcode map: the bits that must match, the bits compared, and what the byte announces. -/
structure OpRow where
  pattern : Byte
  mask : Byte
  kind : OpKind
  deriving DecidableEq, Repr

/-- The prefix bytes (spec 40_prefixes.md R97). -/
def prefixRows : List OpRow :=
  [⟨0xF3, 0xFF, .rep⟩, ⟨0xF2, 0xFF, .repne⟩, ⟨0xF0, 0xFF, .lock⟩, ⟨0x2E, 0xFF, .cs⟩, ⟨0x36, 0xFF, .ss⟩,
   ⟨0x3E, 0xFF, .ds⟩, ⟨0x26, 0xFF, .es⟩, ⟨0x64, 0xFF, .fs⟩, ⟨0x65, 0xFF, .gs⟩, ⟨0x66, 0xFF, .opsize⟩,
   ⟨0x67, 0xFF, .adsize⟩]

/-- The carrier opcodes (spec 42_carrier_instructions.md R131 to R142) and the two-byte escape (30_encoding.md R52). -/
def carrierRows : List OpRow :=
  [⟨0x90, 0xFF, .nop⟩, ⟨0x88, 0xFF, .movRm8R8⟩, ⟨0x89, 0xFF, .movRmR⟩, ⟨0x8A, 0xFF, .movR8Rm8⟩,
   ⟨0x8B, 0xFF, .movRRm⟩, ⟨0x8D, 0xFF, .lea⟩, ⟨0xB0, 0xF8, .movR8Imm⟩, ⟨0xB8, 0xF8, .movRImm⟩,
   ⟨0xC6, 0xFF, .movRm8Imm⟩, ⟨0xC7, 0xFF, .movRmImm⟩, ⟨0xEB, 0xFF, .jmp⟩, ⟨0xE2, 0xFF, .loop⟩,
   ⟨0x0F, 0xFF, .escape⟩]

/-- The whole map. -/
def opTable : List OpRow := prefixRows ++ carrierRows

/-- The row of the map a byte matches, if any. -/
def lookupOp (b : Byte) : Option OpKind :=
  (opTable.find? fun r => b &&& r.mask == r.pattern).map (·.kind)

/-! ## The decoder -/

/-- The rest of the unit that first byte `b` of kind `k` begins (spec 30_encoding.md R65). A prefix is a unit of one
byte: the prefix loop (40 R97) goes on to the next unit. F3 gives `rep`, of whose two names the decoder need not tell
which is meant (40 R81, R82; D30). -/
def decodeKind (op ad : Size) (b : Byte) (k : OpKind) (bs : List Byte) : Decoded Instr :=
  match k with
  | .rep => .ok (.rep, bs)
  | .repne => .ok (.repne, bs)
  | .lock => .ok (.lock, bs)
  | .cs => .ok (.cs, bs)
  | .ss => .ok (.ss, bs)
  | .ds => .ok (.ds, bs)
  | .es => .ok (.es, bs)
  | .fs => .ok (.fs, bs)
  | .gs => .ok (.gs, bs)
  | .opsize => .ok (.opsize, bs)
  | .adsize => .ok (.adsize, bs)
  | .nop => .ok (.nop, bs)
  | .movRm8R8 => (takeModRm ad bs).map fun p => .movRm8R8 p.2 p.1
  | .movRmR => (takeModRm ad bs).map fun p => .movRmR p.2 p.1
  | .movR8Rm8 => (takeModRm ad bs).map fun p => .movR8Rm8 p.1 p.2
  | .movRRm => (takeModRm ad bs).map fun p => .movRRm p.1 p.2
  | .lea => (takeModRm ad bs).map fun p => .lea p.1 p.2
  | .movR8Imm => (takeByte bs).map fun imm => .movR8Imm (Reg.ofNum (lowField b)) imm
  | .movRImm => (takeImm op bs).map fun imm => .movRImm (Reg.ofNum (lowField b)) imm
  | .movRm8Imm =>
    (takeDigit0 b ad bs).bind fun rm rest => (takeByte rest).map fun imm => .movRm8Imm rm imm
  | .movRmImm =>
    (takeDigit0 b ad bs).bind fun rm rest => (takeImm op rest).map fun imm => .movRmImm rm imm
  | .jmp => (takeByte bs).map .jmp
  | .loop => (takeByte bs).map .loop
  | .escape => (takeByte bs).bind fun _ _ => .error (.unknownOpcode b)

/-- Decode the prefix or the carrier form at the front of a list of bytes, under the operand size and the address size
in force there. Total on any bytes. -/
def decode (op ad : Size) : List Byte → Decoded Instr
  | [] => .error .truncated
  | b :: bs =>
    match lookupOp b with
    | some k => decodeKind op ad b k bs
    | none => .error (.unknownOpcode b)

/-! ## The encoder -/

/-- The mod field a 16-bit form's displacement asks for (spec 30_encoding.md R59). -/
def Disp16.mode : Disp16 → BitVec 2
  | .absent => 0#2
  | .d8 _ => 1#2
  | .d16 _ => 2#2

/-- The displacement bytes of a 16-bit form. -/
def Disp16.encode : Disp16 → List Byte
  | .absent => []
  | .d8 d => [d]
  | .d16 d => bytes16 d

/-- The mod field a 32-bit form's displacement asks for (spec 30_encoding.md R60). -/
def Disp32.mode : Disp32 → BitVec 2
  | .absent => 0#2
  | .d8 _ => 1#2
  | .d32 _ => 2#2

/-- The displacement bytes of a 32-bit form. -/
def Disp32.encode : Disp32 → List Byte
  | .absent => []
  | .d8 d => [d]
  | .d32 d => bytes32 d

/-- The ModR/M byte with reg field `reg`, the SIB byte and the displacement of an r/m operand (spec 30_encoding.md
R50, R54, R57). -/
def Rm.encode (reg : BitVec 3) : Rm → List Byte
  | .reg r => [fieldByte 3#2 reg r.num]
  | .mem (.abs16 d) => fieldByte 0#2 reg 6#3 :: bytes16 d
  | .mem (.based16 b d) => fieldByte d.mode reg b.num :: d.encode
  | .mem (.abs32 d) => fieldByte 0#2 reg 5#3 :: bytes32 d
  | .mem (.based32 b d) => fieldByte d.mode reg b.num :: d.encode
  | .mem (.sib s index base d) => fieldByte d.mode reg 4#3 :: fieldByte s.num index.num base.num :: d.encode
  | .mem (.sibAbs s index d) => fieldByte 0#2 reg 4#3 :: fieldByte s.num index.num 5#3 :: bytes32 d

/-- An opcode byte whose low three bits are a register number (spec 42 R137, R138). -/
def opcodeReg (b : Byte) (r : Reg) : Byte := b ||| r.num.zeroExtend 8

/-- The bytes of a prefix or a carrier form under operand size `op` (spec 42 R131 to R142, 40 R81 to R92). -/
def encode (op : Size) : Instr → List Byte
  | .rep => [0xF3]
  | .repe => [0xF3]
  | .repne => [0xF2]
  | .lock => [0xF0]
  | .cs => [0x2E]
  | .ss => [0x36]
  | .ds => [0x3E]
  | .es => [0x26]
  | .fs => [0x64]
  | .gs => [0x65]
  | .opsize => [0x66]
  | .adsize => [0x67]
  | .nop => [0x90]
  | .movRm8R8 rm reg => 0x88 :: rm.encode reg.num
  | .movRmR rm reg => 0x89 :: rm.encode reg.num
  | .movR8Rm8 reg rm => 0x8A :: rm.encode reg.num
  | .movRRm reg rm => 0x8B :: rm.encode reg.num
  | .lea reg rm => 0x8D :: rm.encode reg.num
  | .movR8Imm reg imm => [opcodeReg 0xB0 reg, imm]
  | .movRImm reg imm => opcodeReg 0xB8 reg :: immBytes op imm
  | .movRm8Imm rm imm => 0xC6 :: (rm.encode 0#3 ++ [imm])
  | .movRmImm rm imm => 0xC7 :: (rm.encode 0#3 ++ immBytes op imm)
  | .jmp rel => [0xEB, rel]
  | .loop rel => [0xE2, rel]

/-! ## The host's view of a table row -/

/-- The first `n` bytes of an instruction whose bits are `w`, byte `k` in bits `8k+7 : 8k`, and every bit from `nbits`
up read as 0. -/
def tableBytes (n nbits w : Nat) : List Byte :=
  (List.range n).map fun k => BitVec.ofNat 8 ((w % 2 ^ nbits) >>> (8 * k))

/-- The unit the decoder reads from an instruction whose bits are `w`, under the sizes at reset. -/
def decodeTableWord (nbits w : Nat) : Option Instr :=
  match decode Config.resetOpSize Config.resetAddrSize (tableBytes Config.maxLen nbits w) with
  | .ok (i, _) => some i
  | .error _ => none

end Sys2Proof
end

