-- ==== Sys2Proof/Machine/Fetch.lean ====
section
/-! DEFINITION. Fetching and decoding an instruction, the prefix loop, and one step over a given meaning of the
instructions (spec 30_encoding.md R65, 40_prefixes.md R97, 20_memory.md R36, 70_reset_and_hazards.md R173). -/

namespace Sys2Proof.Machine

/-- `FetchByte(k)`: the byte at CS:ip+k, refused past the top offset of `DefAddrSize`, else admitted as a fetch of one
byte (20 R36). -/
def fetchByte (k : Nat) (s : State) : Res Byte :=
  if s.ip.toNat + k ≤ topOffset s.env.defAddrSize then
    andThen (checkAdmit .cs (s.ip + BitVec.ofNat 32 k) 1 .fetch s) fun _ =>
    .next (memByte s.mem (linear .cs (s.ip + BitVec.ofNat 32 k) s).toNat)
  else refuse s .offsetWrap

/-- The bytes that can be fetched from byte `k` of the instruction on, up to the first that cannot and at most
`count`. -/
def fetchRun : Nat → Nat → State → List Byte
  | 0, _, _ => []
  | count + 1, k, s =>
    match fetchByte k s with
    | .next b => b :: fetchRun count (k + 1) s
    | .fault _ => []
    | .refused _ => []

/-- The unit (a prefix, or a carrier form without prefixes) after the `n` bytes consumed so far, and its length. Where
the decoder needs a byte that cannot be fetched, the step stops as the fetch of that byte does (R65, R36). A unit takes
at most `Config.maxUnit` bytes, so the last case is never reached with that many bytes fetched. -/
def decodeNext (s : State) : Res (Instr × Nat) :=
  let bs := fetchRun Config.maxUnit s.dec.n s
  match decode (opsize s) (adsize s) bs with
  | .ok (i, rest) => .next (i, bs.length - rest.length)
  | .error (.unknownOpcode b) => refuse s (.unknownOpcode · b)
  | .error .truncated => andThen (fetchByte (s.dec.n + bs.length) s) fun _ => raise s .instructionTooLong

/-- Count `k` more bytes as consumed (10 R20, `n`). -/
def consume (k : Nat) (s : State) : State := { s with dec := { s.dec with n := s.dec.n + k } }

/-- The tests made when the length `n` is known: `MaxLen` (30 R66), then `ip + n` within the offset range of
`DefAddrSize` (10 R16, 20 R36; the order is log entry 8). -/
def checkLength (s : State) : Res Unit :=
  if Config.maxLen < s.dec.n then raise s .instructionTooLong
  else if s.ip.toNat + s.dec.n ≤ topOffset s.env.defAddrSize then .next ()
  else refuse s .offsetWrap

/-- The prefix loop and the instruction it leads to (40 R97, 30 R65): record prefixes until a carrier form comes, test
the length, and run it. The count of rounds is bounded by `MaxLen` (40 R96). -/
def runInstr (meaning : Instr → State → Res State) : Nat → State → Res State
  | 0, s => raise s .instructionTooLong
  | rounds + 1, s =>
    andThen (decodeNext s) fun p =>
      if p.1.isPrefix then andThen (meaning p.1 (consume p.2 s)) (runInstr meaning rounds)
      else andThen (checkLength (consume p.2 s)) fun _ => meaning p.1 (consume p.2 s)

/-- The decoder's record is created empty at the instruction's first byte (10 R20). -/
def beginInstr (s : State) : State := { s with dec := DecodeRecord.empty }

/-- Has the run ended normally? (70 R173) -/
def ended (s : State) : Bool := s.ip == s.env.endIp

/-- One step: at `END` nothing is fetched and the state stays (70 R173, log entry 5); else one whole instruction. -/
def stepWith (meaning : Instr → State → Res State) (s : State) : Res State :=
  if ended s then .next s else runInstr meaning Config.maxLen (beginInstr s)

/-- Store bytes from CS:ip+k on. -/
def placeBytes : List Byte → Nat → State → State
  | [], _, s => s
  | b :: bs, k, s =>
    placeBytes bs (k + 1) { s with mem := setMemByte (linear .cs (s.ip + BitVec.ofNat 32 k) s).toNat b s.mem }

/-- Let the environment admit every fetch, and let no run end at the present `ip`: what the fetch of a placed
instruction needs. -/
def admitFetch (s : State) : State :=
  { s with env := { s.env with
      denied := s.env.denied.filter fun d => d.kind != .fetch
      endIp := if s.env.endIp = s.ip then ~~~ s.ip else s.env.endIp } }

end Sys2Proof.Machine
end

