-- ==== Sys2Proof/Machine/Step.lean ====
section
/-! DEFINITION. One step of the machine, and a state with a given instruction placed where the step fetches. -/

namespace Sys2Proof.Machine

/-- One step: one instruction, its prefixes included (spec 60_exceptions.md R150, 70_reset_and_hazards.md R173). -/
def step (s : State) : Host.Outcome State Fault Refusal := stepWith exec s

/-- The state with the instruction whose bits are `w` stored at CS:ip, zeros after it up to the longest instruction. -/
def State.withFetchWord (s : State) (nbits w : Nat) : State :=
  placeBytes (tableBytes Config.maxLen nbits w) 0 (admitFetch s)

end Sys2Proof.Machine
end

