-- ==== Sys2Proof/Safety.lean ====
section
/-! DEFINITION. What counts as a run that went well (spec 70_reset_and_hazards.md R173, 60_exceptions.md R150). Claims in
these terms carry the premises `SingleAgent` and `NoInterruptDelivered` (log entries 13 and 14). -/

namespace Sys2Proof.Safety

open Sys2Proof.Machine

/-- `k` steps from `s` end in `t` with no fault and no refusal recorded. -/
def RunsTo (k : Nat) (s t : State) : Prop := Host.Core.run Sys2Proof.core k s = .next t

/-- The run from `s` ends normally within `k` steps in the final state `t` (R173). -/
def EndsNormally (k : Nat) (s t : State) : Prop := RunsTo k s t ∧ ended t = true

/-- The next step from `s` records neither a fault nor a refusal. -/
def StepSafe (s : State) : Prop := ∃ t, step s = .next t

end Sys2Proof.Safety
end

