-- ==== Sys2Proof/Certificates/Slice0/Obligations.lean ====
section
/-! DEFINITION. What is claimed of the machine, from the spec's numbered rules: one `Obligations.<Name>` each, over the
vocabulary of `Sys2Proof.Claims`. -/

namespace Sys2Proof.Claims

open Sys2Proof.Machine

/-! ## Vocabulary -/

/-- No repeat prefix and no LOCK prefix is recorded (42 R143 refuses both). -/
def Plain (s : State) : Prop := s.dec.rep = none ∧ s.dec.lock = false

/-- The instruction of `s` has ended with `ip` at `target`: the record is discarded, the parameters stay, and its bytes,
and no others, have joined the fetched ones. -/
def EndedAt (target : Word32) (s t : State) : Prop :=
  t.ip = target ∧ t.dec = DecodeRecord.empty ∧ t.env = s.env ∧
    ∀ a, a ∈ t.fetched ↔ a ∈ s.fetched ∨ ∃ k < s.dec.n, a = (linear .cs s.ip s + BitVec.ofNat 32 k).toNat

/-- Every byte of memory reads as before. -/
def SameMemory (s t : State) : Prop := ∀ a, memByte t.mem a = memByte s.mem a

/-- Every general register is unchanged. -/
def SameRegisters (s t : State) : Prop := ∀ q, r32 q t = r32 q s

/-- The view of width `w` of register number `r` holds the low bits of `v`, and every other bit of every register is
unchanged (10 R13). -/
def ViewHolds (w : Width) (r : Reg) (v : Word32) (s t : State) : Prop :=
  match w with
  | .w8 => r8 r t = v.setWidth 8 ∧ (∀ q, q ≠ r → r8 q t = r8 q s) ∧
      (∀ q, (r32 q t).extractLsb' 16 16 = (r32 q s).extractLsb' 16 16) ∧
      (∀ q, q ≠ Reg.byteHome r → r32 q t = r32 q s)
  | .w16 => r16 r t = v.setWidth 16 ∧ (r32 r t).extractLsb' 16 16 = (r32 r s).extractLsb' 16 16 ∧
      (∀ q, q ≠ r → r32 q t = r32 q s)
  | .w32 => r32 r t = v ∧ (∀ q, q ≠ r → r32 q t = r32 q s)

/-- The `n` bytes from linear address `a` hold those of `v`, least significant first, and every other byte of memory
reads as before (20 R33). -/
def BytesStored (n : Nat) (a v : Word32) (s t : State) : Prop :=
  (∀ k < n, memByte t.mem (a + BitVec.ofNat 32 k).toNat = (v >>> (8 * k)).setWidth 8) ∧
    ∀ b, (∀ k < n, b ≠ (a + BitVec.ofNat 32 k).toNat) → memByte t.mem b = memByte s.mem b

/-- The linear address of a memory form's first byte. -/
def operandAddress (m : MemForm) (s : State) : Word32 := linear (segment m s) (offset m s) s

/-- The `n` bytes at a memory form's offset do not pass the top of its offset range (20 R32). -/
def InRange (n : Nat) (m : MemForm) (s : State) : Prop :=
  (offset m s).toNat + n ≤ topOffset (formSize m) + 1

/-- None of the `n` bytes at a memory form's address is code (20 R39). -/
def NoCode (n : Nat) (m : MemForm) (s : State) : Prop :=
  ∀ k < n, isCode (operandAddress m s + BitVec.ofNat 32 k) s = false

/-- An r/m operand of width `w` can be read: a register always, memory in range and admitted. -/
def RmReadable (w : Width) (rm : Rm) (s : State) : Prop :=
  match rm with
  | .reg _ => True
  | .mem m => InRange w.bytes m s ∧ segAdmit (segment m s) (offset m s) w.bytes .read s = true

/-- An r/m operand of width `w` can be written: a register always, memory in range, clear of code and admitted. -/
def RmWritable (w : Width) (rm : Rm) (s : State) : Prop :=
  match rm with
  | .reg _ => True
  | .mem m => InRange w.bytes m s ∧ NoCode w.bytes m s ∧
      segAdmit (segment m s) (offset m s) w.bytes .write s = true

/-- The value of a readable r/m operand of width `w`, zero-extended. -/
def rmValue (w : Width) (rm : Rm) (s : State) : Word32 :=
  match rm with
  | .reg r => readReg w r s
  | .mem m => readBytes w.bytes (operandAddress m s) s.mem

/-- An r/m operand of width `w` holds the low bits of `v`, and nothing else of registers and memory has changed. -/
def RmWritten (w : Width) (rm : Rm) (v : Word32) (s t : State) : Prop :=
  match rm with
  | .reg r => ViewHolds w r v s t ∧ SameMemory s t
  | .mem m => BytesStored w.bytes (operandAddress m s) v s t ∧ SameRegisters s t

/-- The fault of an access of `n` bytes to a memory form that the environment does not admit (20 R32). -/
def notAdmitted (m : MemForm) (n : Nat) (kind : Access) (s : State) : Fault :=
  .accessNotAdmitted s.ip (segment m s) (offset m s) n kind

/-- The store of `w` to memory form `m` gets as far as the admission test, and the environment does not admit it. -/
def StoreNotAdmitted (w : Width) (m : MemForm) (s : State) : Prop :=
  Plain s ∧ InRange w.bytes m s ∧ NoCode w.bytes m s ∧ segAdmit (segment m s) (offset m s) w.bytes .write s = false

/-- The load of `w` from memory form `m` gets as far as the admission test, and the environment does not admit it. -/
def LoadNotAdmitted (w : Width) (m : MemForm) (s : State) : Prop :=
  Plain s ∧ InRange w.bytes m s ∧ segAdmit (segment m s) (offset m s) w.bytes .read s = false

/-- The first bytes after the prefixes that the opcode map defines (42 R130 (a)). -/
def carrierBytes : List Byte :=
  [0x88, 0x89, 0x8A, 0x8B, 0x8D, 0x90, 0xB0, 0xB1, 0xB2, 0xB3, 0xB4, 0xB5, 0xB6, 0xB7, 0xB8, 0xB9, 0xBA, 0xBB, 0xBC,
   0xBD, 0xBE, 0xBF, 0xC6, 0xC7, 0xE2, 0xEB]

/-- The prefix bytes (30 R69). -/
def prefixBytes : List Byte := [0x26, 0x2E, 0x36, 0x3E, 0x64, 0x65, 0x66, 0x67, 0xF0, 0xF2, 0xF3]

/-- The group of a prefix (40 R80); a carrier form has none. -/
def prefixGroup : Instr → Option Nat
  | .rep | .repe | .repne => some 0
  | .lock => some 1
  | .cs | .ss | .ds | .es | .fs | .gs => some 2
  | .opsize => some 3
  | .adsize => some 4
  | .nop | .movRm8R8 _ _ | .movRmR _ _ | .movR8Rm8 _ _ | .movRRm _ _ | .lea _ _ | .movR8Imm _ _ | .movRImm _ _
  | .movRm8Imm _ _ | .movRmImm _ _ | .jmp _ | .loop _ => none

/-- What a prefix makes of the decoder's record (40 R81 to R92); a carrier form makes nothing of it. -/
def recorded (d : DecodeRecord) : Instr → DecodeRecord
  | .rep | .repe => { d with rep := some .f3 }
  | .repne => { d with rep := some .f2 }
  | .lock => { d with lock := true }
  | .cs => { d with segovr := some .cs }
  | .ss => { d with segovr := some .ss }
  | .ds => { d with segovr := some .ds }
  | .es => { d with segovr := some .es }
  | .fs => { d with segovr := some .fs }
  | .gs => { d with segovr := some .gs }
  | .opsize => { d with opovr := true }
  | .adsize => { d with adovr := true }
  | .nop | .movRm8R8 _ _ | .movRmR _ _ | .movR8Rm8 _ _ | .movRRm _ _ | .lea _ _ | .movR8Imm _ _ | .movRImm _ _
  | .movRm8Imm _ _ | .movRmImm _ _ | .jmp _ | .loop _ => d

/-- The record after a run of prefixes, `n` bytes counted. -/
def recordOf (prefixes : List Instr) (n : Nat) : DecodeRecord :=
  { prefixes.foldl recorded DecodeRecord.empty with n := n }

/-- The bytes of an instruction: its prefixes, one byte each, then the carrier form under operand size `op`. -/
def instrBytes (op : Size) (prefixes : List Instr) (i : Instr) : List Byte :=
  prefixes.flatMap (encode op) ++ encode op i

/-- The bytes of a run of prefixes, one byte each (the same under both sizes), and then `tail`. -/
def withPrefixes (prefixes : List Instr) (tail : List Byte) : List Byte :=
  prefixes.flatMap (encode .s16) ++ tail

/-- The bytes `tail`, in opcode position, are as far as the decoder reads before it finds the opcode byte `b`, or the
digit under it, undefined: `b` alone, 0Fh with its second byte, C6 or C7 with a ModR/M byte of another digit (42 R139,
R140, R144). -/
def UndefinedOpcode (b : Byte) (tail : List Byte) : Prop :=
  (tail = [b] ∧ b ∉ carrierBytes ∧ b ∉ prefixBytes ∧ b ≠ 0x0F) ∨
  (b = 0x0F ∧ ∃ b2, tail = [b, b2]) ∨
  ((b = 0xC6 ∨ b = 0xC7) ∧ ∃ m, midField m ≠ 0#3 ∧ tail = [b, m])

/-- The bytes `bs` can be fetched, from CS:ip on, and are the ones there (20 R36). -/
def Fetches (bs : List Byte) (s : State) : Prop :=
  ∀ k b, bs[k]? = some b → fetchByte k s = .next b

/-- Does the instruction name a memory operand that it accesses? LEA computes an offset and accesses nothing. -/
def accessesMemory : Instr → Bool
  | .movRm8R8 (.mem _) _ | .movRmR (.mem _) _ | .movR8Rm8 _ (.mem _) | .movRRm _ (.mem _) | .movRm8Imm (.mem _) _
  | .movRmImm (.mem _) _ => true
  | .movRm8R8 (.reg _) _ | .movRmR (.reg _) _ | .movR8Rm8 _ (.reg _) | .movRRm _ (.reg _) | .movRm8Imm (.reg _) _
  | .movRmImm (.reg _) _ => false
  | .rep | .repe | .repne | .lock | .cs | .ss | .ds | .es | .fs | .gs | .opsize | .adsize | .nop | .lea _ _
  | .movR8Imm _ _ | .movRImm _ _ | .jmp _ | .loop _ => false

/-- The instructions that store the memory operand they name. -/
def storesMemory : Instr → Bool
  | .movRm8R8 (.mem _) _ | .movRmR (.mem _) _ | .movRm8Imm (.mem _) _ | .movRmImm (.mem _) _ => true
  | .movRm8R8 (.reg _) _ | .movRmR (.reg _) _ | .movRm8Imm (.reg _) _ | .movRmImm (.reg _) _ => false
  | .rep | .repe | .repne | .lock | .cs | .ss | .ds | .es | .fs | .gs | .opsize | .adsize | .nop | .movR8Rm8 _ _
  | .movRRm _ _ | .lea _ _ | .movR8Imm _ _ | .movRImm _ _ | .jmp _ | .loop _ => false

/-- What the states between steps keep: memory in its canonical form, the fetched addresses in rising order and below
2^32, no decoder's record. -/
def MachineInv (s : State) : Prop :=
  Memory.wf s.mem = true ∧ risingFrom 0 s.fetched = true ∧ (∀ a ∈ s.fetched, a < Config.addressSpace) ∧
    s.dec = DecodeRecord.empty

/-- The `ip` a fault records. -/
def faultIp : Fault → Word32
  | .accessNotAdmitted ip _ _ _ _ => ip
  | .instructionTooLong ip => ip
  | .invalidOpcode ip => ip

/-- The `ip` a refusal records; the host's own reason has none. -/
def refusalIp : Refusal → Option Word32
  | .unknownOpcode ip _ => some ip
  | .redundantPrefix ip => some ip
  | .repOnNonString ip => some ip
  | .lockNotModelled ip => some ip
  | .offsetWrap ip => some ip
  | .storeIntoCode ip => some ip
  | .notModelled _ => none

/-! ## The spec's `DecodeRM`, written out over plain numbers (41 R120) -/

/-- `Reg(i)` or `Mem(seg, off)`. -/
inductive Place where
  | reg (i : Nat)
  | mem (seg : Seg) (off : Nat)
  deriving DecidableEq, Repr

/-- `r32[i]` as a number. -/
def num32 (s : State) (i : Nat) : Nat := (r32 (Reg.ofNum (BitVec.ofNat 3 i)) s).toNat

/-- `r16[i]` as a number. -/
def num16 (s : State) (i : Nat) : Nat := num32 s i % 65536

/-- `sext_N(v)` of an 8-bit number, `N` given as `2^N`. -/
def sext8 (top d : Nat) : Nat := if d < 128 then d else d + (top - 256)

/-- The registers of a 16-bit form, by r/m (R120). -/
def regs16 : Nat → List Nat
  | 0 => [3, 6]
  | 1 => [3, 7]
  | 2 => [5, 6]
  | 3 => [5, 7]
  | 4 => [6]
  | 5 => [7]
  | 6 => [5]
  | _ => [3]

/-- `DecodeRM(adsize, mod, rm, [ss, index, base], disp, segovr)` (R120); `d8`, `d16` and `d32` are the displacement
bytes read at the three sizes. -/
def decodeRM (ad : Size) (md rm ss index base d8 d16 d32 : Nat) (segovr : Option Seg) (s : State) : Place :=
  if md = 3 then .reg rm
  else match ad with
    | .s16 =>
      let regs := if md = 0 ∧ rm = 6 then [] else regs16 rm
      let d := if md = 0 ∧ rm = 6 then d16 else if md = 0 then 0 else if md = 1 then sext8 (2 ^ 16) d8 else d16
      .mem (segovr.getD (if 5 ∈ regs then .ss else .ds)) (((regs.map (num16 s)).sum + d) % 2 ^ 16)
    | .s32 =>
      let d := if md = 0 then 0 else if md = 1 then sext8 (2 ^ 32) d8 else d32
      if rm ≠ 4 then
        if md = 0 ∧ rm = 5 then .mem (segovr.getD .ds) d32
        else .mem (segovr.getD (if rm = 4 ∨ rm = 5 then .ss else .ds)) ((num32 s rm + d) % 2 ^ 32)
      else
        let x := if index = 4 then 0 else num32 s index * 2 ^ ss % 2 ^ 32
        if base = 5 ∧ md = 0 then .mem (segovr.getD .ds) ((x + d32) % 2 ^ 32)
        else .mem (segovr.getD (if base = 4 ∨ base = 5 then .ss else .ds)) ((num32 s base + x + d) % 2 ^ 32)

/-- Where an r/m operand of the model lies. -/
def placeOf (rm : Rm) (s : State) : Place :=
  match rm with
  | .reg r => .reg r.num.toNat
  | .mem m => .mem (segment m s) (offset m s).toNat

/-- The number at the front of a list of bytes, `n` bytes, least significant first. -/
def leNumber : Nat → List Byte → Nat
  | 0, _ => 0
  | _ + 1, [] => 0
  | n + 1, b :: bs => b.toNat + 256 * leNumber n bs

/-- The displacement field of an r/m operand as a number, 0 where there is none. -/
def dispField : Rm → Nat
  | .reg _ => 0
  | .mem (.abs16 d) => d.toNat
  | .mem (.based16 _ .absent) => 0
  | .mem (.based16 _ (.d8 d)) => d.toNat
  | .mem (.based16 _ (.d16 d)) => d.toNat
  | .mem (.abs32 d) => d.toNat
  | .mem (.based32 _ .absent) => 0
  | .mem (.based32 _ (.d8 d)) => d.toNat
  | .mem (.based32 _ (.d32 d)) => d.toNat
  | .mem (.sib _ _ _ .absent) => 0
  | .mem (.sib _ _ _ (.d8 d)) => d.toNat
  | .mem (.sib _ _ _ (.d32 d)) => d.toNat
  | .mem (.sibAbs _ _ d) => d.toNat

/-- The number of displacement bytes, by mod, r/m and the SIB byte's base (30 R59, R60). -/
def dispBytes (ad : Size) (md rm base : Nat) : Nat :=
  match ad with
  | .s16 => if md = 0 then (if rm = 6 then 2 else 0) else if md = 1 then 1 else if md = 2 then 2 else 0
  | .s32 =>
    if md = 0 then (if rm = 5 then 4 else if rm = 4 ∧ base = 5 then 4 else 0)
    else if md = 1 then 1 else if md = 2 then 4 else 0

end Sys2Proof.Claims

open Sys2Proof Sys2Proof.Machine Sys2Proof.Claims

/-! ## Encoding -/

/-- A few words written out from the spec's encodings (95 section 2) decode to the instructions they stand for: a
SIB form with disp8 and the same ModR/M byte under the two address sizes, a displacement before an immediate, a register
number in the opcode, a prefix. -/
def Obligations.SampleWordsDecode : Prop :=
  decode .s32 .s32 [0x8D, 0x4C, 0x98, 0x08] = .ok (.lea .ecx (.mem (.sib .x4 .ebx .eax (.d8 8))), []) ∧
  decode .s16 .s16 [0x8B, 0x46, 0x04] = .ok (.movRRm .eax (.mem (.based16 .bp (.d8 4))), []) ∧
  decode .s32 .s32 [0x8B, 0x46, 0x04] = .ok (.movRRm .eax (.mem (.based32 .esi (.d8 4))), []) ∧
  decode .s16 .s16 [0xC7, 0x06, 0x34, 0x12, 0x78, 0x56] = .ok (.movRmImm (.mem (.abs16 0x1234)) 0x5678, []) ∧
  decode .s16 .s16 [0xB4, 0x7F] = .ok (.movR8Imm .esp 0x7F, []) ∧
  decode .s16 .s16 [0x66, 0x90] = .ok (.opsize, [0x90])

/-- Decoding an encoded well-formed prefix or carrier form gives it back, with the bytes after it, at every value of
every operand. `repe` is the other name of the byte F3, which decodes to `rep` (40 R81, R82). -/
def Obligations.DecodeOfEncodeIsInstruction : Prop :=
  ∀ (op ad : Size) (i : Instr) (rest : List Byte), i.wf op ad = true → i ≠ .repe →
    decode op ad (encode op i ++ rest) = .ok (i, rest)

/-- What the decoder accepts is well formed, and the bytes it took are that instruction's encoding: no two encodings of
one instruction, no bit of an accepted word ignored. -/
def Obligations.EncodeOfDecodeIsBytes : Prop :=
  ∀ (op ad : Size) (bs rest : List Byte) (i : Instr), decode op ad bs = .ok (i, rest) →
    i.wf op ad = true ∧ i ≠ .repe ∧ bs = encode op i ++ rest

/-- A byte in opcode position that the map does not define is refused by its value, and so is 0Fh once its second byte
has been read; and the bytes the map defines are exactly the 26 of 42 R130 (a) and the eleven prefixes of 30 R69. -/
def Obligations.UndefinedOpcodesAreRefused : Prop :=
  (∀ (op ad : Size) (b : Byte) (rest : List Byte), b ∉ carrierBytes → b ∉ prefixBytes → b ≠ 0x0F →
    decode op ad (b :: rest) = .error (.unknownOpcode b)) ∧
  (∀ (op ad : Size) (b2 : Byte) (rest : List Byte),
    decode op ad (0x0F :: b2 :: rest) = .error (.unknownOpcode 0x0F)) ∧
  (∀ (op ad : Size) (b : Byte), b ∈ carrierBytes ∨ b ∈ prefixBytes →
    ∃ rest i left, decode op ad (b :: rest) = .ok (i, left))

/-- C6 and C7 with a reg field other than 000 are refused as soon as the ModR/M byte is read (42 R139, R140). -/
def Obligations.UndefinedDigitIsRefused : Prop :=
  ∀ (op ad : Size) (m : Byte) (rest : List Byte), midField m ≠ 0#3 →
    decode op ad (0xC6 :: m :: rest) = .error (.unknownOpcode 0xC6) ∧
    decode op ad (0xC7 :: m :: rest) = .error (.unknownOpcode 0xC7)

/-- Every one of the 256 ModR/M values, and of the 256 SIB values behind one, is a defined form: with the bytes it
asks for there, an operand comes out (30 R70, 41 R120). -/
def Obligations.EveryModRmAndSibByteIsDefined : Prop :=
  ∀ (ad : Size) (m : Byte) (bs : List Byte), 5 ≤ bs.length → ∃ rm rest, decodeRm ad m bs = .ok (rm, rest)

/-- A SIB byte follows the ModR/M byte exactly when the address size is 32, mod is not 11 and r/m is 100 (30 R56). -/
def Obligations.SibByteFollowsExactly : Prop :=
  ∀ (ad : Size) (m : Byte) (bs : List Byte) (rm : Rm) (rest : List Byte), decodeRm ad m bs = .ok (rm, rest) →
    ((∃ ss index base d, rm = .mem (.sib ss index base d)) ∨ (∃ ss index d, rm = .mem (.sibAbs ss index d)) ↔
      ad = .s32 ∧ m.toNat / 64 ≠ 3 ∧ m.toNat % 8 = 4)

/-- The displacement of an r/m operand has the size that the tables of 30 R59 and R60 give, immediately follows the SIB
byte where there is one and else the ModR/M byte, and nothing else is consumed. That its least significant byte comes
first is R62, the spec's decision D6; that base 101 under mod 00 takes four bytes is R60's row from 41 R116, the spec's
decision D10. -/
def Obligations.DisplacementSizes : Prop :=
  ∀ (ad : Size) (m : Byte) (bs : List Byte) (rm : Rm) (rest : List Byte), decodeRm ad m bs = .ok (rm, rest) →
    let start := if sibFollows ad m then 1 else 0
    let size := dispBytes ad (m.toNat / 64) (m.toNat % 8) ((bs.headD 0).toNat % 8)
    start + size ≤ bs.length ∧ dispField rm = leNumber size (bs.drop start) ∧ rest = bs.drop (start + size)

/-- The decoder needs every byte of an instruction: cut short anywhere, a well-formed prefix or carrier form is not
decoded for want of the next byte; and 0Fh needs its second byte (30 R65). -/
def Obligations.DecoderNeedsEveryByte : Prop :=
  (∀ (op ad : Size) (i : Instr) (k : Nat), i.wf op ad = true → k < (encode op i).length →
    decode op ad ((encode op i).take k) = .error .truncated) ∧
  ∀ op ad : Size, decode op ad [0x0F] = .error .truncated

/-- The operand the decoder and the operand forms give is the one the spec's function `DecodeRM` gives (41 R120), for
every ModR/M byte, SIB byte, displacement, override and state: the register number, or the segment and the offset. -/
def Obligations.OperandIsThatOfDecodeRM : Prop :=
  ∀ (ad : Size) (m : Byte) (bs : List Byte) (rm : Rm) (rest : List Byte) (s : State),
    decodeRm ad m bs = .ok (rm, rest) →
    let sib := (bs.headD 0).toNat
    let disp := if sibFollows ad m then bs.drop 1 else bs
    placeOf rm s = decodeRM ad (m.toNat / 64) (m.toNat % 8) (sib / 64) (sib / 8 % 8) (sib % 8)
      (leNumber 1 disp) (leNumber 2 disp) (leNumber 4 disp) s.dec.segovr s

/-! ## A step -/

/-- Where the bytes at CS:ip decode to a carrier form, the step is `exec` of it in a state that differs in the decoder's
record alone: empty but for the length `n`. Where they decode to a prefix, the step goes on from what `exec` of the
prefix answers, one byte counted, with the next unit. -/
def Obligations.StepRunsDecodedInstruction : Prop :=
  ∀ (s : State) (i : Instr) (rest : List Byte), ended s = false →
    decode s.env.defOpSize s.env.defAddrSize (fetchRun Config.maxUnit 0 s) = .ok (i, rest) →
    let n := (fetchRun Config.maxUnit 0 s).length - rest.length
    (i.isPrefix = false → n ≤ 15 → s.ip.toNat + n ≤ topOffset s.env.defAddrSize →
      step s = exec i { s with dec := { DecodeRecord.empty with n := n } }) ∧
    (i.isPrefix = true →
      step s = andThen (exec i { s with dec := { DecodeRecord.empty with n := n } }) (runInstr exec 14))

/-- A whole instruction is one step: prefixes of different groups, in any order, and a carrier form of at most 15 bytes
in all, whose bytes stand at CS:ip, run as `exec` of the form in the state whose decoder's record holds exactly those
prefixes and the length (30 R65, 40 R97, 60 R150). -/
def Obligations.PrefixedInstructionIsOneStep : Prop :=
  ∀ (s : State) (prefixes : List Instr) (i : Instr), ended s = false →
    (∀ p ∈ prefixes, p.isPrefix = true) → (prefixes.map prefixGroup).Nodup → i.isPrefix = false →
    let u : State := { s with dec := recordOf prefixes 0 }
    let bs := instrBytes (opsize u) prefixes i
    i.wf (opsize u) (adsize u) = true → bs.length ≤ 15 → s.ip.toNat + bs.length ≤ topOffset s.env.defAddrSize →
    Fetches bs s → step s = exec i { s with dec := recordOf prefixes bs.length }

/-- The same instruction with more than 15 bytes in all is the fault InstructionTooLong (30 R66). Only one prefix of each
of the five groups before the longest carrier form is so long; that the length is tested there before the repeat and
LOCK prefixes are refused is the model's choice (log entry 7: R65 and 60 R153, against R66's remark that the fault is
never reached), and so is that it is tested before `ip + n` (log entry 8). -/
def Obligations.OverlongInstructionFaults : Prop :=
  ∀ (s : State) (prefixes : List Instr) (i : Instr), ended s = false →
    (∀ p ∈ prefixes, p.isPrefix = true) → (prefixes.map prefixGroup).Nodup → i.isPrefix = false →
    let u : State := { s with dec := recordOf prefixes 0 }
    let bs := instrBytes (opsize u) prefixes i
    i.wf (opsize u) (adsize u) = true → 15 < bs.length → Fetches bs s → step s = .fault (.instructionTooLong s.ip)

/-- At `END` the step fetches nothing and the state stays (70 R173; that the ended run's step answers the same state is
the model's reading, log entry 5). -/
def Obligations.StepStaysAtEnd : Prop :=
  ∀ s : State, s.ip = s.env.endIp → step s = .next s

/-- Where the decoder, after any recordable prefixes, needs a byte beyond `tail`, the fetch of that byte can stop the
step: past the top offset of the default address size it is refused, and where the environment does not admit it, it is
the fault AccessNotAdmitted of that one byte (20 R36, R32). With no prefix and an empty `tail` it is the instruction's
first byte. That a byte's offset is tested before its admission is the model's choice (log entry 8). -/
def Obligations.FetchStops : Prop :=
  ∀ (s : State) (prefixes : List Instr) (tail : List Byte), ended s = false →
    (∀ p ∈ prefixes, p.isPrefix = true) → (prefixes.map prefixGroup).Nodup →
    let u : State := { s with dec := recordOf prefixes 0 }
    let bs := withPrefixes prefixes tail
    let off := s.ip + BitVec.ofNat 32 bs.length
    decode (opsize u) (adsize u) tail = .error .truncated → Fetches bs s →
    (topOffset s.env.defAddrSize < s.ip.toNat + bs.length → step s = .refused (.offsetWrap s.ip)) ∧
    (s.ip.toNat + bs.length ≤ topOffset s.env.defAddrSize → segAdmit .cs off 1 .fetch s = false →
      step s = .fault (.accessNotAdmitted s.ip .cs off 1 .fetch))

/-- An instruction, its prefixes included, whose bytes can all be fetched but whose end `ip + n` lies past the top offset
is refused (10 R16, 20 R36): it ends exactly at the top, for one that would go further stops at the fetch of a byte
(`FetchStops`). -/
def Obligations.InstructionPastTopIsRefused : Prop :=
  ∀ (s : State) (prefixes : List Instr) (i : Instr), ended s = false →
    (∀ p ∈ prefixes, p.isPrefix = true) → (prefixes.map prefixGroup).Nodup → i.isPrefix = false →
    let u : State := { s with dec := recordOf prefixes 0 }
    let bs := instrBytes (opsize u) prefixes i
    i.wf (opsize u) (adsize u) = true → bs.length ≤ 15 → topOffset s.env.defAddrSize < s.ip.toNat + bs.length →
    Fetches bs s → step s = .refused (.offsetWrap s.ip)

/-- A step that meets, after any recordable prefixes, an opcode byte the map does not define, 0Fh with its second byte, or
C6 or C7 with another digit than 0, is refused with the first opcode byte (42 R139, R140, R144; 30 R70). -/
def Obligations.UnknownOpcodeStepIsRefused : Prop :=
  ∀ (s : State) (prefixes : List Instr) (b : Byte) (tail : List Byte), ended s = false →
    (∀ p ∈ prefixes, p.isPrefix = true) → (prefixes.map prefixGroup).Nodup → UndefinedOpcode b tail →
    Fetches (withPrefixes prefixes tail) s → step s = .refused (.unknownOpcode s.ip b)

/-- A step that meets a second prefix of a group, after prefixes of different groups, is refused, whatever follows it
(40 R94, R97). -/
def Obligations.SecondPrefixStepIsRefused : Prop :=
  ∀ (s : State) (prefixes : List Instr) (q : Instr), ended s = false →
    (∀ p ∈ prefixes, p.isPrefix = true) → (prefixes.map prefixGroup).Nodup → q.isPrefix = true →
    prefixGroup q ∈ prefixes.map prefixGroup → Fetches (withPrefixes prefixes (encode .s16 q)) s →
    step s = .refused (.redundantPrefix s.ip)

/-! ## Rules of the whole machine -/

/-- Every step keeps memory in canonical form, the fetched addresses in rising order below 2^32, and leaves no
decoder's record. -/
def Obligations.StepKeepsMachineInv : Prop :=
  ∀ s t : State, MachineInv s → step s = .next t → MachineInv t

/-- The first state meets the invariant. -/
def Obligations.ResetMeetsMachineInv : Prop := MachineInv State.reset

/-- No step changes a parameter (70 R170, R177). -/
def Obligations.StepKeepsParameters : Prop :=
  ∀ s t : State, step s = .next t → t.env = s.env

/-- Code that has been fetched is never overwritten, and is never forgotten, over any number of steps (20 R39). -/
def Obligations.RunKeepsFetchedCode : Prop :=
  ∀ (k : Nat) (s t : State), Sys2Proof.Safety.RunsTo k s t →
    ∀ a ∈ s.fetched, a ∈ t.fetched ∧ memByte t.mem a = memByte s.mem a

/-- The bytes of the instruction that a step ran have joined the fetched ones and read after it as they did before. -/
def Obligations.StepKeepsItsOwnBytes : Prop :=
  ∀ (s : State) (i : Instr) (t : State), i.isPrefix = false → exec i s = .next t → s.dec.n ≤ 15 →
    ∀ k < s.dec.n, (linear .cs s.ip s + BitVec.ofNat 32 k).toNat ∈ t.fetched ∧
      memByte t.mem (linear .cs s.ip s + BitVec.ofNat 32 k).toNat =
        memByte s.mem (linear .cs s.ip s + BitVec.ofNat 32 k).toNat

/-- The decoder's record does not survive: a step does not depend on the record it starts from, and leaves an empty one
(10 R20). -/
def Obligations.DecodeRecordDoesNotSurvive : Prop :=
  ∀ s : State, ended s = false →
    (∀ d : DecodeRecord, step { s with dec := d } = step s) ∧
    (∀ t, step s = .next t → t.dec = DecodeRecord.empty)

/-- The history of fetched addresses selects between going on and a refusal only: it enters no register, no byte of
memory and not `ip` (10 R21, 90 C16). -/
def Obligations.FetchHistoryEntersNoValue : Prop :=
  ∀ (s t u : State) (history : List Nat), step s = .next t → step { s with fetched := history } = .next u →
    u.regs = t.regs ∧ u.mem = t.mem ∧ u.ip = t.ip ∧ u.env = t.env

/-- A fault and a refusal record the `ip` of the instruction's first byte, and no step is refused as not modelled: the
reasons are those of the closed lists (60 R150, R151). -/
def Obligations.StopRecordsInstructionPointer : Prop :=
  ∀ s : State, (∀ f, step s = .fault f → faultIp f = s.ip) ∧ (∀ r, step s = .refused r → refusalIp r = some s.ip)

/-! ## Registers, memory, addresses -/

/-- The 24 names are views of the eight registers, and a write through a name changes its bits alone (10 R13). -/
def Obligations.RegisterNamesAreViews : Prop :=
  (∀ (r : Reg) (s : State), r16 r s = (r32 r s).extractLsb' 0 16) ∧
  (∀ s : State, r8 .eax s = (r32 .eax s).extractLsb' 0 8 ∧ r8 .ecx s = (r32 .ecx s).extractLsb' 0 8 ∧
    r8 .edx s = (r32 .edx s).extractLsb' 0 8 ∧ r8 .ebx s = (r32 .ebx s).extractLsb' 0 8 ∧
    r8 .esp s = (r32 .eax s).extractLsb' 8 8 ∧ r8 .ebp s = (r32 .ecx s).extractLsb' 8 8 ∧
    r8 .esi s = (r32 .edx s).extractLsb' 8 8 ∧ r8 .edi s = (r32 .ebx s).extractLsb' 8 8) ∧
  (∀ (w : Width) (r : Reg) (v : Word32) (s : State), ViewHolds w r v s (writeReg w r v s))

/-- Memory operands are little-endian: a read of `n` bytes is the sum of the bytes times powers of 256, and a store puts
byte `k` of the value at address `k` further on and changes no other byte (20 R33). -/
def Obligations.MemoryIsLittleEndian : Prop :=
  (∀ (n : Nat) (a : Word32) (m : List Host.Cell), n ≤ 4 → (readBytes n a m).toNat =
    ((List.range n).map fun k => (memByte m (a + BitVec.ofNat 32 k).toNat).toNat * 256 ^ k).sum) ∧
  (∀ (n : Nat) (a v : Word32) (s : State), n ≤ 4 →
    BytesStored n a v s { s with mem := writeBytes n a v s.mem })

/-- A store in range, clear of code and admitted can be read back at the same place, if the read is admitted: the low
`n` bytes come back (20 R33, R37). -/
def Obligations.StoredValueReadsBack : Prop :=
  ∀ (seg : Seg) (ad : Size) (off v : Word32) (w : Width) (s t : State),
    memWrite seg ad off w.bytes v s = .next t → segAdmit seg off w.bytes .read t = true →
    ∃ x, memRead seg ad off w.bytes t = .next x ∧ x.toNat = v.toNat % 256 ^ w.bytes

/-- An index field of 100 is no index, whatever the scale: the four forms have one offset (41 R114). -/
def Obligations.ScaleWithoutIndexIsIgnored : Prop :=
  ∀ (ss : Scale) (base : Reg) (d : Disp32) (d32 : Word32) (s : State),
    offset (.sib ss .esp base d) s = r32 base s + disp32 d ∧ offset (.sibAbs ss .esp d32) s = d32

/-- The default segment of every 16-bit form: SS where BP takes part, DS elsewhere (41 R107). -/
def Obligations.DefaultSegmentOf16BitForms : Prop :=
  ∀ (b : Base16) (d : Disp16) (a : Word16),
    (defaultSeg (.based16 b d) = .ss ↔ b = .bpSi ∨ b = .bpDi ∨ b = .bp) ∧
    (defaultSeg (.based16 b d) = .ds ↔ b = .bxSi ∨ b = .bxDi ∨ b = .si ∨ b = .di ∨ b = .bx) ∧
    defaultSeg (.abs16 a) = .ds

/-- The segment of an operand is the override where there is one, else the form's default (41 R119), and its linear
address is that segment's base plus the offset modulo 2^32 (20 R31). -/
def Obligations.OperandAddressUsesSegment : Prop :=
  ∀ (m : MemForm) (s : State),
    (∀ g, s.dec.segovr = some g → (operandAddress m s).toNat =
      ((s.env.segBase.get g).toNat + (offset m s).toNat) % 2 ^ 32) ∧
    (s.dec.segovr = none → (operandAddress m s).toNat =
      ((s.env.segBase.get (defaultSeg m)).toNat + (offset m s).toNat) % 2 ^ 32)

/-! ## Prefixes -/

/-- REP and REPE/REPZ record F3, REPNE/REPNZ records F2, where no repeat prefix is recorded and fewer than 15 bytes are
consumed; nothing else of the state changes (40 R81 to R83). -/
def Obligations.RepeatPrefixesAreRecorded : Prop :=
  (∀ (op ad : Size) (rest : List Byte), decode op ad (0xF3 :: rest) = .ok (.rep, rest) ∧
    decode op ad (0xF2 :: rest) = .ok (.repne, rest)) ∧
  ∀ s : State, s.dec.rep = none → s.dec.n < 15 →
    exec .rep s = .next { s with dec := { s.dec with rep := some .f3 } } ∧
    exec .repe s = .next { s with dec := { s.dec with rep := some .f3 } } ∧
    exec .repne s = .next { s with dec := { s.dec with rep := some .f2 } }

/-- LOCK is recorded where it is not recorded yet and fewer than 15 bytes are consumed; nothing else of the state
changes (40 R84). -/
def Obligations.LockPrefixIsRecorded : Prop :=
  (∀ (op ad : Size) (rest : List Byte), decode op ad (0xF0 :: rest) = .ok (.lock, rest)) ∧
  ∀ s : State, s.dec.lock = false → s.dec.n < 15 →
    exec .lock s = .next { s with dec := { s.dec with lock := true } }

/-- Each of the six segment overrides records its segment where none is recorded and fewer than 15 bytes are consumed;
nothing else of the state changes, and a memory operand then uses that segment, whatever its form (40 R85 to R90). -/
def Obligations.SegmentOverridesAreRecorded : Prop :=
  ∀ p ∈ [((0x2E : Byte), Instr.cs, Seg.cs), (0x36, .ss, .ss), (0x3E, .ds, .ds), (0x26, .es, .es), (0x64, .fs, .fs),
      (0x65, .gs, .gs)],
    (∀ (op ad : Size) (rest : List Byte), decode op ad (p.1 :: rest) = .ok (p.2.1, rest)) ∧
    ∀ s : State, s.dec.segovr = none → s.dec.n < 15 →
      exec p.2.1 s = .next { s with dec := { s.dec with segovr := some p.2.2 } } ∧
      ∀ m : MemForm, segment m { s with dec := { s.dec with segovr := some p.2.2 } } = p.2.2

/-- The operand-size and the address-size override are recorded where they are not recorded yet and fewer than 15 bytes
are consumed; each switches its own attribute to the other value and leaves the other attribute (40 R91, R92). -/
def Obligations.SizeOverridesAreRecorded : Prop :=
  (∀ (op ad : Size) (rest : List Byte), decode op ad (0x66 :: rest) = .ok (.opsize, rest) ∧
    decode op ad (0x67 :: rest) = .ok (.adsize, rest)) ∧
  (∀ s : State, s.dec.opovr = false → s.dec.n < 15 →
    ∃ t, exec .opsize s = .next t ∧ t = { s with dec := { s.dec with opovr := true } } ∧
      opsize s = s.env.defOpSize ∧ opsize t = s.env.defOpSize.other ∧ adsize t = adsize s) ∧
  (∀ s : State, s.dec.adovr = false → s.dec.n < 15 →
    ∃ t, exec .adsize s = .next t ∧ t = { s with dec := { s.dec with adovr := true } } ∧
      adsize s = s.env.defAddrSize ∧ adsize t = s.env.defAddrSize.other ∧ opsize t = opsize s)

/-- A second prefix of a group is refused, the same byte or another of the group, whatever bytes are counted in
between (40 R94). -/
def Obligations.SecondPrefixOfGroupIsRefused : Prop :=
  ∀ (p q : Instr) (s t : State) (k : Nat), p.isPrefix = true → prefixGroup p = prefixGroup q →
    exec p s = .next t → exec q (consume k t) = .refused (.redundantPrefix s.ip)

/-- Prefixes of different groups may come in either order: where each can be recorded alone, and the length allows both,
each can be recorded after the other, and both orders lead to one state (40 R95). -/
def Obligations.PrefixOrderDoesNotMatter : Prop :=
  ∀ (p q : Instr) (s t u : State) (k : Nat), p.isPrefix = true → q.isPrefix = true → prefixGroup p ≠ prefixGroup q →
    exec p s = .next t → exec q s = .next u → s.dec.n + k < 15 →
    ∃ v, exec q (consume k t) = .next v ∧ exec p (consume k u) = .next v

/-- A repeat prefix on any carrier instruction is refused, and without one a LOCK prefix is (42 R143, 60 R153 (a)). -/
def Obligations.RepeatOrLockOnCarrierIsRefused : Prop :=
  ∀ (i : Instr) (s : State), i.isPrefix = false →
    (s.dec.rep ≠ none → exec i s = .refused (.repOnNonString s.ip)) ∧
    (s.dec.rep = none → s.dec.lock = true → exec i s = .refused (.lockNotModelled s.ip))

/-- A segment override on an instruction that accesses no memory operand has no effect: with or without it, and whichever
it is, the instruction answers the same (40 R93; LEA among them, 42 R136). -/
def Obligations.OverrideWithoutOperandIsIgnored : Prop :=
  ∀ (i : Instr) (s : State) (g : Option Seg), i.isPrefix = false → accessesMemory i = false →
    exec i { s with dec := { s.dec with segovr := g } } = exec i s

/-! ## Carrier instructions: each completes with the result its rule gives, and changes nothing else -/

/-- NOP (42 R131). -/
def Obligations.NopOnlyAdvances : Prop :=
  (∀ (op ad : Size) (rest : List Byte), decode op ad (0x90 :: rest) = .ok (.nop, rest)) ∧
  ∀ s : State, Plain s → ∃ t, exec .nop s = .next t ∧ SameRegisters s t ∧ SameMemory s t ∧
    EndedAt (s.ip + BitVec.ofNat 32 s.dec.n) s t

/-- MOV r/m8, r8, and its one exception, from the write (42 R132). -/
def Obligations.MovRm8R8Stores : Prop :=
  (∀ (op ad : Size) (m : Byte) (bs : List Byte), decode op ad (0x88 :: m :: bs) =
    (decodeRm ad m bs).map fun rm => .movRm8R8 rm (Reg.ofNum (midField m))) ∧
  (∀ (rm : Rm) (reg : Reg) (s : State), Plain s → RmWritable .w8 rm s →
    ∃ t, exec (.movRm8R8 rm reg) s = .next t ∧ RmWritten .w8 rm ((r8 reg s).zeroExtend 32) s t ∧
      EndedAt (s.ip + BitVec.ofNat 32 s.dec.n) s t) ∧
  ∀ (m : MemForm) (reg : Reg) (s : State), StoreNotAdmitted .w8 m s →
    exec (.movRm8R8 (.mem m) reg) s = .fault (notAdmitted m 1 .write s)

/-- MOV r/m16, r16 and MOV r/m32, r32, by the operand size, and their one exception, from the write (42 R133). -/
def Obligations.MovRmRStores : Prop :=
  (∀ (op ad : Size) (m : Byte) (bs : List Byte), decode op ad (0x89 :: m :: bs) =
    (decodeRm ad m bs).map fun rm => .movRmR rm (Reg.ofNum (midField m))) ∧
  (∀ (rm : Rm) (reg : Reg) (s : State), Plain s →
    (opsize s = .s16 → RmWritable .w16 rm s →
      ∃ t, exec (.movRmR rm reg) s = .next t ∧ RmWritten .w16 rm ((r16 reg s).zeroExtend 32) s t ∧
        EndedAt (s.ip + BitVec.ofNat 32 s.dec.n) s t) ∧
    (opsize s = .s32 → RmWritable .w32 rm s →
      ∃ t, exec (.movRmR rm reg) s = .next t ∧ RmWritten .w32 rm (r32 reg s) s t ∧
        EndedAt (s.ip + BitVec.ofNat 32 s.dec.n) s t)) ∧
  ∀ (m : MemForm) (reg : Reg) (s : State), StoreNotAdmitted (opsize s).width m s →
    exec (.movRmR (.mem m) reg) s = .fault (notAdmitted m (opsize s).width.bytes .write s)

/-- MOV r8, r/m8, and its one exception, from the read (42 R134). -/
def Obligations.MovR8Rm8Loads : Prop :=
  (∀ (op ad : Size) (m : Byte) (bs : List Byte), decode op ad (0x8A :: m :: bs) =
    (decodeRm ad m bs).map fun rm => .movR8Rm8 (Reg.ofNum (midField m)) rm) ∧
  (∀ (reg : Reg) (rm : Rm) (s : State), Plain s → RmReadable .w8 rm s →
    ∃ t, exec (.movR8Rm8 reg rm) s = .next t ∧ ViewHolds .w8 reg (rmValue .w8 rm s) s t ∧ SameMemory s t ∧
      EndedAt (s.ip + BitVec.ofNat 32 s.dec.n) s t) ∧
  ∀ (reg : Reg) (m : MemForm) (s : State), LoadNotAdmitted .w8 m s →
    exec (.movR8Rm8 reg (.mem m)) s = .fault (notAdmitted m 1 .read s)

/-- MOV r16, r/m16 and MOV r32, r/m32, by the operand size; the operand is that of the state before the register is
written; the one exception comes from the read (42 R135). -/
def Obligations.MovRRmLoads : Prop :=
  (∀ (op ad : Size) (m : Byte) (bs : List Byte), decode op ad (0x8B :: m :: bs) =
    (decodeRm ad m bs).map fun rm => .movRRm (Reg.ofNum (midField m)) rm) ∧
  (∀ (reg : Reg) (rm : Rm) (s : State), Plain s →
    (opsize s = .s16 → RmReadable .w16 rm s →
      ∃ t, exec (.movRRm reg rm) s = .next t ∧ ViewHolds .w16 reg (rmValue .w16 rm s) s t ∧ SameMemory s t ∧
        EndedAt (s.ip + BitVec.ofNat 32 s.dec.n) s t) ∧
    (opsize s = .s32 → RmReadable .w32 rm s →
      ∃ t, exec (.movRRm reg rm) s = .next t ∧ ViewHolds .w32 reg (rmValue .w32 rm s) s t ∧ SameMemory s t ∧
        EndedAt (s.ip + BitVec.ofNat 32 s.dec.n) s t)) ∧
  ∀ (reg : Reg) (m : MemForm) (s : State), LoadNotAdmitted (opsize s).width m s →
    exec (.movRRm reg (.mem m)) s = .fault (notAdmitted m (opsize s).width.bytes .read s)

/-- LEA puts a memory form's offset, low half or whole by the operand size, into the register, without asking the
environment; with a register operand it is the fault InvalidOpcode (42 R136). -/
def Obligations.LeaLoadsOffset : Prop :=
  (∀ (op ad : Size) (m : Byte) (bs : List Byte), decode op ad (0x8D :: m :: bs) =
    (decodeRm ad m bs).map fun rm => .lea (Reg.ofNum (midField m)) rm) ∧
  ∀ (reg : Reg) (s : State), Plain s →
    (∀ r, exec (.lea reg (.reg r)) s = .fault (.invalidOpcode s.ip)) ∧
    (∀ m, opsize s = .s16 → ∃ t, exec (.lea reg (.mem m)) s = .next t ∧ ViewHolds .w16 reg (offset m s) s t ∧
      SameMemory s t ∧ EndedAt (s.ip + BitVec.ofNat 32 s.dec.n) s t) ∧
    (∀ m, opsize s = .s32 → ∃ t, exec (.lea reg (.mem m)) s = .next t ∧ ViewHolds .w32 reg (offset m s) s t ∧
      SameMemory s t ∧ EndedAt (s.ip + BitVec.ofNat 32 s.dec.n) s t)

/-- MOV r8, imm8 (42 R137). -/
def Obligations.MovR8ImmLoads : Prop :=
  (∀ (op ad : Size) (reg : Reg) (imm : Byte) (rest : List Byte),
    decode op ad (BitVec.ofNat 8 (0xB0 + reg.num.toNat) :: imm :: rest) = .ok (.movR8Imm reg imm, rest)) ∧
  ∀ (reg : Reg) (imm : Byte) (s : State), Plain s →
    ∃ t, exec (.movR8Imm reg imm) s = .next t ∧ ViewHolds .w8 reg (imm.zeroExtend 32) s t ∧ SameMemory s t ∧
      EndedAt (s.ip + BitVec.ofNat 32 s.dec.n) s t

/-- MOV r16, imm16 and MOV r32, imm32, by the operand size, which also sets the immediate's length (42 R138). -/
def Obligations.MovRImmLoads : Prop :=
  (∀ (ad : Size) (reg : Reg) (b0 b1 b2 b3 : Byte) (rest : List Byte),
    decode .s16 ad (BitVec.ofNat 8 (0xB8 + reg.num.toNat) :: b0 :: b1 :: rest) =
      .ok (.movRImm reg ((b1 ++ b0).zeroExtend 32), rest) ∧
    decode .s32 ad (BitVec.ofNat 8 (0xB8 + reg.num.toNat) :: b0 :: b1 :: b2 :: b3 :: rest) =
      .ok (.movRImm reg (b3 ++ b2 ++ b1 ++ b0), rest)) ∧
  ∀ (reg : Reg) (imm : Word32) (s : State), Plain s →
    (opsize s = .s16 → ∃ t, exec (.movRImm reg imm) s = .next t ∧ ViewHolds .w16 reg imm s t ∧ SameMemory s t ∧
      EndedAt (s.ip + BitVec.ofNat 32 s.dec.n) s t) ∧
    (opsize s = .s32 → ∃ t, exec (.movRImm reg imm) s = .next t ∧ ViewHolds .w32 reg imm s t ∧ SameMemory s t ∧
      EndedAt (s.ip + BitVec.ofNat 32 s.dec.n) s t)

/-- MOV r/m8, imm8: the immediate comes after the displacement; another digit is refused (42 R139). -/
def Obligations.MovRm8ImmStores : Prop :=
  (∀ (op ad : Size) (m : Byte) (bs : List Byte), midField m ≠ 0#3 →
    decode op ad (0xC6 :: m :: bs) = .error (.unknownOpcode 0xC6)) ∧
  (∀ (op ad : Size) (m imm : Byte) (bs : List Byte) (rm : Rm) (rest : List Byte), midField m = 0#3 →
    decodeRm ad m bs = .ok (rm, imm :: rest) →
    decode op ad (0xC6 :: m :: bs) = .ok (.movRm8Imm rm imm, rest)) ∧
  (∀ (rm : Rm) (imm : Byte) (s : State), Plain s → RmWritable .w8 rm s →
    ∃ t, exec (.movRm8Imm rm imm) s = .next t ∧ RmWritten .w8 rm (imm.zeroExtend 32) s t ∧
      EndedAt (s.ip + BitVec.ofNat 32 s.dec.n) s t) ∧
  ∀ (m : MemForm) (imm : Byte) (s : State), StoreNotAdmitted .w8 m s →
    exec (.movRm8Imm (.mem m) imm) s = .fault (notAdmitted m 1 .write s)

/-- MOV r/m16, imm16 and MOV r/m32, imm32, by the operand size: the immediate comes after the displacement; another digit
is refused (42 R140). -/
def Obligations.MovRmImmStores : Prop :=
  (∀ (op ad : Size) (m : Byte) (bs : List Byte), midField m ≠ 0#3 →
    decode op ad (0xC7 :: m :: bs) = .error (.unknownOpcode 0xC7)) ∧
  (∀ (ad : Size) (m b0 b1 : Byte) (bs : List Byte) (rm : Rm) (rest : List Byte), midField m = 0#3 →
    decodeRm ad m bs = .ok (rm, b0 :: b1 :: rest) →
    decode .s16 ad (0xC7 :: m :: bs) = .ok (.movRmImm rm ((b1 ++ b0).zeroExtend 32), rest)) ∧
  (∀ (ad : Size) (m b0 b1 b2 b3 : Byte) (bs : List Byte) (rm : Rm) (rest : List Byte), midField m = 0#3 →
    decodeRm ad m bs = .ok (rm, b0 :: b1 :: b2 :: b3 :: rest) →
    decode .s32 ad (0xC7 :: m :: bs) = .ok (.movRmImm rm (b3 ++ b2 ++ b1 ++ b0), rest)) ∧
  (∀ (rm : Rm) (imm : Word32) (s : State), Plain s →
    (opsize s = .s16 → RmWritable .w16 rm s → ∃ t, exec (.movRmImm rm imm) s = .next t ∧
      RmWritten .w16 rm imm s t ∧ EndedAt (s.ip + BitVec.ofNat 32 s.dec.n) s t) ∧
    (opsize s = .s32 → RmWritable .w32 rm s → ∃ t, exec (.movRmImm rm imm) s = .next t ∧
      RmWritten .w32 rm imm s t ∧ EndedAt (s.ip + BitVec.ofNat 32 s.dec.n) s t)) ∧
  ∀ (m : MemForm) (imm : Word32) (s : State), StoreNotAdmitted (opsize s).width m s →
    exec (.movRmImm (.mem m) imm) s = .fault (notAdmitted m (opsize s).width.bytes .write s)

/-- JMP rel8: the sum modulo 2^32 of the next instruction's offset and the sign-extended displacement, masked to 16 bits
when the operand size is 16 (42 R141). -/
def Obligations.JmpGoesToTarget : Prop :=
  (∀ (op ad : Size) (rel : Byte) (rest : List Byte), decode op ad (0xEB :: rel :: rest) = .ok (.jmp rel, rest)) ∧
  ∀ (rel : Byte) (s : State), Plain s →
    let target := (s.ip + BitVec.ofNat 32 s.dec.n) + rel.signExtend 32
    ∃ t, exec (.jmp rel) s = .next t ∧ SameRegisters s t ∧ SameMemory s t ∧
      EndedAt (if opsize s = .s16 then target &&& 0x0000FFFF else target) s t

/-- LOOP rel8: CX or ECX, by the address size, is decremented first and tested after; the jump is taken when the count
is not zero, its target masked when the operand size is 16 (42 R142). -/
def Obligations.LoopCountsAndJumps : Prop :=
  (∀ (op ad : Size) (rel : Byte) (rest : List Byte), decode op ad (0xE2 :: rel :: rest) = .ok (.loop rel, rest)) ∧
  ∀ (rel : Byte) (s : State), Plain s →
    let next := s.ip + BitVec.ofNat 32 s.dec.n
    let target := next + rel.signExtend 32
    let taken := if opsize s = .s16 then target &&& 0x0000FFFF else target
    (adsize s = .s16 → ∃ t, exec (.loop rel) s = .next t ∧
      ViewHolds .w16 .ecx ((r16 .ecx s - 1).zeroExtend 32) s t ∧ SameMemory s t ∧
      EndedAt (if r16 .ecx s = 1 then next else taken) s t) ∧
    (adsize s = .s32 → ∃ t, exec (.loop rel) s = .next t ∧
      ViewHolds .w32 .ecx (r32 .ecx s - 1) s t ∧ SameMemory s t ∧
      EndedAt (if r32 .ecx s = 1 then next else taken) s t)

/-- Where a load stops: offsets past the top are refused, then an access the environment does not admit is the fault, with
the form's segment, offset and byte count (20 R32, 60 R153 (c), (d)). -/
def Obligations.LoadStopsInOrder : Prop :=
  ∀ (reg : Reg) (m : MemForm) (s : State), Plain s →
    ∀ p ∈ [(Instr.movR8Rm8 reg (.mem m), Width.w8), (Instr.movRRm reg (.mem m), (opsize s).width)],
      (¬ InRange p.2.bytes m s → exec p.1 s = .refused (.offsetWrap s.ip)) ∧
      (InRange p.2.bytes m s → segAdmit (segment m s) (offset m s) p.2.bytes .read s = false →
        exec p.1 s = .fault (.accessNotAdmitted s.ip (segment m s) (offset m s) p.2.bytes .read))

/-- Where a store stops: offsets past the top are refused, then a store into code is refused, then an access the
environment does not admit is the fault (20 R32, R39, 60 R153 (c), (e), (f)). -/
def Obligations.StoreStopsInOrder : Prop :=
  ∀ (reg : Reg) (m : MemForm) (imm8 : Byte) (imm : Word32) (s : State), Plain s →
    ∀ p ∈ [(Instr.movRm8R8 (.mem m) reg, Width.w8), (Instr.movRm8Imm (.mem m) imm8, Width.w8),
        (Instr.movRmR (.mem m) reg, (opsize s).width), (Instr.movRmImm (.mem m) imm, (opsize s).width)],
      (¬ InRange p.2.bytes m s → exec p.1 s = .refused (.offsetWrap s.ip)) ∧
      (InRange p.2.bytes m s → ¬ NoCode p.2.bytes m s → exec p.1 s = .refused (.storeIntoCode s.ip)) ∧
      (InRange p.2.bytes m s → NoCode p.2.bytes m s →
        segAdmit (segment m s) (offset m s) p.2.bytes .write s = false →
        exec p.1 s = .fault (.accessNotAdmitted s.ip (segment m s) (offset m s) p.2.bytes .write))

/-- What is code for a store: the 15 bytes from CS:ip on and every byte fetched before, and nothing else (20 R39; the
window is taken modulo 2^32, log entry 9). -/
def Obligations.CodeIsWindowOrFetched : Prop :=
  ∀ (a : Word32) (s : State), isCode a s = true ↔
    (∃ k < 15, a = linear .cs s.ip s + BitVec.ofNat 32 k) ∨ a.toNat ∈ s.fetched

/-- The frame of every instruction that stores no memory operand: whatever next state it answers, every byte of memory
reads as before and the parameters stay. -/
def Obligations.InstructionsThatDoNotStoreKeepMemory : Prop :=
  ∀ (i : Instr) (s t : State), storesMemory i = false → exec i s = .next t → SameMemory s t ∧ t.env = s.env

/-- The frame of the instructions that store a memory operand: whatever next state they answer, every register is
unchanged, and every byte outside the operand's bytes reads as before. -/
def Obligations.StoresChangeOnlyTheOperand : Prop :=
  ∀ (reg : Reg) (m : MemForm) (imm8 : Byte) (imm : Word32) (s t : State),
    ∀ p ∈ [(Instr.movRm8R8 (.mem m) reg, Width.w8), (Instr.movRm8Imm (.mem m) imm8, Width.w8),
        (Instr.movRmR (.mem m) reg, (opsize s).width), (Instr.movRmImm (.mem m) imm, (opsize s).width)],
      exec p.1 s = .next t → SameRegisters s t ∧ t.env = s.env ∧
        ∀ b, (∀ k < p.2.bytes, b ≠ (operandAddress m s + BitVec.ofNat 32 k).toNat) →
          memByte t.mem b = memByte s.mem b
end

