-- ==== Sys2Proof/Laws/State.lean ====
section
/-! SUPPORT. What each update of the state changes and what it leaves: one lemma per field per update. -/

namespace Sys2Proof.Machine

/-! ## The register file -/

@[simp] theorem Gprs.get_set_same (g : Gprs) (r : Reg) (v : Word32) : (g.set r v).get r = v := by
  cases r <;> rfl

@[simp] theorem Gprs.get_set_other (g : Gprs) {r q : Reg} (v : Word32) (h : q ≠ r) :
    (g.set r v).get q = g.get q := by
  cases r <;> cases q <;> first | rfl | exact absurd rfl h

theorem Gprs.get_set (g : Gprs) (r q : Reg) (v : Word32) :
    (g.set r v).get q = if q = r then v else g.get q := by
  split
  · subst q; simp
  · exact Gprs.get_set_other g v ‹_›

/-- A register file is its eight registers. -/
theorem Gprs.ext_get {g k : Gprs} (h : ∀ r, g.get r = k.get r) : g = k := by
  have h0 := h .eax; have h1 := h .ecx; have h2 := h .edx; have h3 := h .ebx
  have h4 := h .esp; have h5 := h .ebp; have h6 := h .esi; have h7 := h .edi
  cases g; cases k
  simp only [Gprs.get] at *
  subst_vars; rfl

/-! ## writeReg -/

section
variable (w : Width) (r : Reg) (v : Word32) (s : State)
@[simp] theorem writeReg_ip : (writeReg w r v s).ip = s.ip := rfl
@[simp] theorem writeReg_mem : (writeReg w r v s).mem = s.mem := rfl
@[simp] theorem writeReg_dec : (writeReg w r v s).dec = s.dec := rfl
@[simp] theorem writeReg_fetched : (writeReg w r v s).fetched = s.fetched := rfl
@[simp] theorem writeReg_env : (writeReg w r v s).env = s.env := rfl
@[simp] theorem writeReg_opsize : opsize (writeReg w r v s) = opsize s := rfl
@[simp] theorem writeReg_adsize : adsize (writeReg w r v s) = adsize s := rfl
@[simp] theorem writeReg_nextIp : nextIp (writeReg w r v s) = nextIp s := rfl
end

/-- A write of a view leaves every register but the view's home. -/
theorem writeReg_get_other (w : Width) (r : Reg) (v : Word32) (s : State) {q : Reg} (h : q ≠ viewHome w r) :
    (writeReg w r v s).regs.get q = s.regs.get q :=
  Gprs.get_set_other _ _ h

theorem writeReg_get_home (w : Width) (r : Reg) (v : Word32) (s : State) :
    (writeReg w r v s).regs.get (viewHome w r) = mergeView w (Reg.isHighByte r) (s.regs.get (viewHome w r)) v :=
  Gprs.get_set_same _ _ _

/-- The bits after bits 7:0 are written. -/
theorem getLsbD_mergeView_low (old v : Word32) (i : Nat) : (mergeView .w8 false old v).getLsbD i =
      if i < 8 then v.getLsbD i else old.getLsbD i := by
  unfold mergeView
  refine Eq.trans (BitVec.getLsbD_append (x := old.extractLsb' 8 24) (y := v.extractLsb' 0 8)) ?_
  by_cases h : i < 8
  · simp [h]
  · by_cases h2 : i < 32
    · simp [h, show i - 8 < 24 by omega, show 8 + (i - 8) = i by omega]
    · simp [h, show ¬ i - 8 < 24 by omega, BitVec.getLsbD_of_ge old i (by omega)]

/-- The bits after bits 15:8 are written. -/
theorem getLsbD_mergeView_high (old v : Word32) (i : Nat) : (mergeView .w8 true old v).getLsbD i =
      if 8 ≤ i ∧ i < 16 then v.getLsbD (i - 8) else old.getLsbD i := by
  unfold mergeView
  refine Eq.trans (BitVec.getLsbD_append (x := old.extractLsb' 16 16 ++ v.extractLsb' 0 8) (y := old.extractLsb' 0 8)) ?_
  rw [BitVec.getLsbD_append]
  by_cases h : i < 8
  · simp [h, Nat.not_le.mpr h]
  by_cases h1 : i < 16
  · simp [h, h1, show i - 8 < 8 by omega, Nat.le_of_not_lt h]
  · by_cases h2 : i < 32
    · simp [h, h1, show ¬ i - 8 < 8 by omega, show i - 8 - 8 < 16 by omega, show 16 + (i - 8 - 8) = i by omega]
    · simp [h, h1, show ¬ i - 8 < 8 by omega, show ¬ i - 8 - 8 < 16 by omega, BitVec.getLsbD_of_ge old i (by omega)]

/-- The bits after bits 15:0 are written. -/
theorem getLsbD_mergeView_w16 (b : Bool) (old v : Word32) (i : Nat) : (mergeView .w16 b old v).getLsbD i =
      if i < 16 then v.getLsbD i else old.getLsbD i := by
  unfold mergeView
  refine Eq.trans (BitVec.getLsbD_append (x := old.extractLsb' 16 16) (y := v.extractLsb' 0 16)) ?_
  by_cases h : i < 16
  · simp [h]
  · by_cases h2 : i < 32
    · simp [h, show i - 16 < 16 by omega, show 16 + (i - 16) = i by omega]
    · simp [h, show ¬ i - 16 < 16 by omega, BitVec.getLsbD_of_ge old i (by omega)]

/-! ## retireTo, retire -/

section
variable (t : Word32) (s : State)
@[simp] theorem retireTo_regs : (retireTo t s).regs = s.regs := rfl
@[simp] theorem retireTo_ip : (retireTo t s).ip = t := rfl
@[simp] theorem retireTo_mem : (retireTo t s).mem = s.mem := rfl
@[simp] theorem retireTo_dec : (retireTo t s).dec = DecodeRecord.empty := rfl
@[simp] theorem retireTo_fetched :
    (retireTo t s).fetched = noteFetched s.dec.n (linear .cs s.ip s) s.fetched := rfl
@[simp] theorem retireTo_env : (retireTo t s).env = s.env := rfl
@[simp] theorem retire_regs : (retire s).regs = s.regs := rfl
@[simp] theorem retire_ip : (retire s).ip = nextIp s := rfl
@[simp] theorem retire_mem : (retire s).mem = s.mem := rfl
@[simp] theorem retire_dec : (retire s).dec = DecodeRecord.empty := rfl
@[simp] theorem retire_fetched :
    (retire s).fetched = noteFetched s.dec.n (linear .cs s.ip s) s.fetched := rfl
@[simp] theorem retire_env : (retire s).env = s.env := rfl
end

/-! ## consume, beginInstr -/

section
variable (k : Nat) (s : State)
@[simp] theorem consume_regs : (consume k s).regs = s.regs := rfl
@[simp] theorem consume_ip : (consume k s).ip = s.ip := rfl
@[simp] theorem consume_mem : (consume k s).mem = s.mem := rfl
@[simp] theorem consume_fetched : (consume k s).fetched = s.fetched := rfl
@[simp] theorem consume_env : (consume k s).env = s.env := rfl
@[simp] theorem consume_n : (consume k s).dec.n = s.dec.n + k := rfl
@[simp] theorem beginInstr_regs : (beginInstr s).regs = s.regs := rfl
@[simp] theorem beginInstr_ip : (beginInstr s).ip = s.ip := rfl
@[simp] theorem beginInstr_mem : (beginInstr s).mem = s.mem := rfl
@[simp] theorem beginInstr_dec : (beginInstr s).dec = DecodeRecord.empty := rfl
@[simp] theorem beginInstr_fetched : (beginInstr s).fetched = s.fetched := rfl
@[simp] theorem beginInstr_env : (beginInstr s).env = s.env := rfl
end

end Sys2Proof.Machine
end

