-- ==== Sys2Proof/Laws/Memory.lean ====
section
/-! SUPPORT. The laws of memory bytes, of multi-byte accesses and of the set of fetched addresses. -/

namespace Sys2Proof.Machine

/-! ## One byte -/

theorem memByte_insertCell (a b : Nat) (v : Byte) (m : List Host.Cell) (h : memByte m a = Config.unlistedByte)
    (hn : ∀ c ∈ m, c.1 ≠ a) : memByte (insertCell a v m) b = if b = a then v else memByte m b := by
  induction m with
  | nil => by_cases hb : b = a <;> simp [insertCell, memByte, hb, Ne.symm]
  | cons c m ih =>
    obtain ⟨x, w⟩ := c
    have hx : x ≠ a := hn (x, w) (by simp)
    have hm : ∀ c ∈ m, c.1 ≠ a := fun c hc => hn c (by simp [hc])
    have h' : memByte m a = Config.unlistedByte := by simpa [memByte, hx] using h
    unfold insertCell
    split
    · by_cases hb : b = a
      · subst hb; simp [memByte]
      · simp [memByte, hb, Ne.symm hb]
    · by_cases hb : x = b
      · subst hb; simp [memByte, hx]
      · simp [memByte, hb, ih h' hm]

theorem memByte_eraseCell (a b : Nat) (m : List Host.Cell) :
    memByte (eraseCell a m) b = if b = a then Config.unlistedByte else memByte m b := by
  induction m with
  | nil => simp [eraseCell, memByte]
  | cons c m ih =>
    obtain ⟨x, w⟩ := c
    by_cases hx : x = a
    · subst hx
      by_cases hb : b = x
      · subst hb; simpa [eraseCell] using ih
      · simp [eraseCell, ih, hb, memByte, Ne.symm hb]
    · by_cases hb : x = b
      · subst hb; simp [eraseCell, hx, memByte]
      · simp [eraseCell, hx, memByte, hb, ih]

theorem eraseCell_no (a : Nat) (m : List Host.Cell) : ∀ c ∈ eraseCell a m, c.1 ≠ a := by
  induction m with
  | nil => simp [eraseCell]
  | cons c m ih =>
    obtain ⟨x, w⟩ := c
    by_cases hx : x = a
    · simpa [eraseCell, hx] using ih
    · intro c hc
      simp only [eraseCell, hx, if_false, List.mem_cons] at hc
      rcases hc with rfl | hc
      · exact hx
      · exact ih c hc

/-- What a byte reads as after a byte is written: the value there, and what it read before elsewhere. -/
theorem memByte_setMemByte (a b : Nat) (v : Byte) (m : List Host.Cell) :
    memByte (setMemByte a v m) b = if b = a then v else memByte m b := by
  unfold setMemByte
  split
  · rename_i hv; rw [memByte_eraseCell, hv]
  · rw [memByte_insertCell a b v _ (by rw [memByte_eraseCell]; simp) (eraseCell_no a m), memByte_eraseCell]
    by_cases hb : b = a <;> simp [hb]

@[simp] theorem memByte_setMemByte_same (a : Nat) (v : Byte) (m : List Host.Cell) :
    memByte (setMemByte a v m) a = v := by
  simp [memByte_setMemByte]

@[simp] theorem memByte_setMemByte_other {a b : Nat} (v : Byte) (m : List Host.Cell) (h : b ≠ a) :
    memByte (setMemByte a v m) b = memByte m b := by
  simp [memByte_setMemByte, h]

/-! ## The canonical form is kept -/

theorem risingFrom_weaken {lo lo' : Nat} (h : lo' ≤ lo) {l : List Nat} (hr : risingFrom lo l = true) :
    risingFrom lo' l = true := by
  cases l with
  | nil => rfl
  | cons a l =>
    simp only [risingFrom, Bool.and_eq_true, decide_eq_true_eq] at *
    exact ⟨by omega, hr.2⟩

theorem risingFrom_eraseCell (a : Nat) (m : List Host.Cell) :
    ∀ lo, risingFrom lo (m.map (·.1)) = true → risingFrom lo ((eraseCell a m).map (·.1)) = true := by
  induction m with
  | nil => simp [eraseCell]
  | cons c m ih =>
    obtain ⟨x, w⟩ := c
    intro lo h
    simp only [List.map_cons, risingFrom, Bool.and_eq_true, decide_eq_true_eq] at h
    by_cases hx : x = a
    · simp only [eraseCell, hx, if_true]
      exact risingFrom_weaken (by omega) (ih _ h.2)
    · simp only [eraseCell, hx, if_false, List.map_cons, risingFrom, Bool.and_eq_true, decide_eq_true_eq]
      exact ⟨h.1, ih _ h.2⟩

theorem risingFrom_insertCell (a : Nat) (v : Byte) (m : List Host.Cell) (hn : ∀ c ∈ m, c.1 ≠ a) :
    ∀ lo, lo ≤ a → risingFrom lo (m.map (·.1)) = true → risingFrom lo ((insertCell a v m).map (·.1)) = true := by
  induction m with
  | nil => intro lo h _; simp [insertCell, risingFrom, h]
  | cons c m ih =>
    obtain ⟨x, w⟩ := c
    intro lo hlo h
    have hx : x ≠ a := hn (x, w) (by simp)
    simp only [List.map_cons, risingFrom, Bool.and_eq_true, decide_eq_true_eq] at h
    unfold insertCell
    split
    · simp only [List.map_cons, risingFrom, Bool.and_eq_true, decide_eq_true_eq]
      exact ⟨hlo, by omega, h.2⟩
    · simp only [List.map_cons, risingFrom, Bool.and_eq_true, decide_eq_true_eq]
      exact ⟨h.1, ih (fun c hc => hn c (by simp [hc])) _ (by omega) h.2⟩

theorem mem_eraseCell {a : Nat} {m : List Host.Cell} {c : Host.Cell} (h : c ∈ eraseCell a m) : c ∈ m := by
  induction m with
  | nil => simp [eraseCell] at h
  | cons d m ih =>
    obtain ⟨x, w⟩ := d
    by_cases hx : x = a
    · simp only [eraseCell, hx, if_true] at h; exact List.mem_cons_of_mem _ (ih h)
    · simp only [eraseCell, hx, if_false, List.mem_cons] at h ⊢; exact h.imp id ih

theorem mem_insertCell {a : Nat} {v : Byte} {m : List Host.Cell} {c : Host.Cell} (h : c ∈ insertCell a v m) :
    c = (a, v) ∨ c ∈ m := by
  induction m with
  | nil => simpa [insertCell] using h
  | cons d m ih =>
    obtain ⟨x, w⟩ := d
    unfold insertCell at h
    split at h
    · simpa using h
    · simp only [List.mem_cons] at h ⊢
      rcases h with h | h
      · exact .inr (.inl h)
      · exact (ih h).imp id .inr

theorem Memory.wf_setMemByte {a : Nat} (v : Byte) {m : List Host.Cell} (ha : a < Config.addressSpace)
    (h : Memory.wf m = true) : Memory.wf (setMemByte a v m) = true := by
  simp only [Memory.wf, Bool.and_eq_true, List.all_eq_true, decide_eq_true_eq, bne_iff_ne] at h ⊢
  unfold setMemByte
  split
  · exact ⟨risingFrom_eraseCell a m 0 h.1, fun c hc => h.2 c (mem_eraseCell hc)⟩
  · refine ⟨risingFrom_insertCell a v _ (eraseCell_no a m) 0 (by omega) (risingFrom_eraseCell a m 0 h.1), ?_⟩
    intro c hc
    rcases mem_insertCell hc with rfl | hc
    · exact ⟨ha, by assumption⟩
    · exact h.2 c (mem_eraseCell hc)

theorem Memory.wf_writeBytes (n : Nat) (a v : Word32) (m : List Host.Cell) (h : Memory.wf m = true) :
    Memory.wf (writeBytes n a v m) = true := by
  induction n generalizing a v m with
  | zero => exact h
  | succ n ih => exact ih _ _ _ (Memory.wf_setMemByte _ a.isLt h)

theorem Memory.wf_nil : Memory.wf [] = true := by decide

/-! ## Multi-byte accesses -/

/-- The address of byte `k` after the first is that of byte `k + 1`. -/
theorem add_one_add_ofNat (a : Word32) (k : Nat) : a + 1 + BitVec.ofNat 32 k = a + BitVec.ofNat 32 (k + 1) := by
  apply BitVec.eq_of_toNat_eq; simp; omega

/-- A byte outside the `n` stored ones reads as before. -/
theorem memByte_writeBytes_other (n : Nat) (a v : Word32) (m : List Host.Cell) (b : Nat)
    (h : ∀ k < n, b ≠ (a + BitVec.ofNat 32 k).toNat) : memByte (writeBytes n a v m) b = memByte m b := by
  induction n generalizing a v m with
  | zero => rfl
  | succ n ih =>
    rw [writeBytes, ih, memByte_setMemByte_other]
    · simpa using h 0 (by omega)
    · intro k hk
      have := h (k + 1) (by omega)
      rwa [add_one_add_ofNat]

/-! ## Fetched addresses -/

theorem mem_insertAddr (a b : Nat) (l : List Nat) : b ∈ insertAddr a l ↔ b = a ∨ b ∈ l := by
  induction l with
  | nil => simp [insertAddr]
  | cons x l ih =>
    unfold insertAddr
    split
    · simp
    · split
      · subst x; simp
      · simp [ih]; tauto

/-- The noted set: the `n` bytes and what was noted before. -/
theorem mem_noteFetched (n : Nat) (a : Word32) (l : List Nat) (b : Nat) :
    b ∈ noteFetched n a l ↔ (∃ k < n, b = (a + BitVec.ofNat 32 k).toNat) ∨ b ∈ l := by
  induction n generalizing a l with
  | zero => simp [noteFetched]
  | succ n ih =>
    have e := add_one_add_ofNat a
    rw [noteFetched, ih, mem_insertAddr]
    constructor
    · rintro (⟨k, hk, rfl⟩ | rfl | h)
      · exact .inl ⟨k + 1, by omega, by rw [e]⟩
      · exact .inl ⟨0, by omega, by simp⟩
      · exact .inr h
    · rintro (⟨k, hk, rfl⟩ | h)
      · cases k with
        | zero => exact .inr (.inl (by simp))
        | succ k => exact .inl ⟨k, by omega, by rw [e]⟩
      · exact .inr (.inr h)

theorem risingFrom_insertAddr (a : Nat) (l : List Nat) :
    ∀ lo, lo ≤ a → risingFrom lo l = true → risingFrom lo (insertAddr a l) = true := by
  induction l with
  | nil => intro lo h _; simp [insertAddr, risingFrom, h]
  | cons x l ih =>
    intro lo hlo h
    simp only [risingFrom, Bool.and_eq_true, decide_eq_true_eq] at h
    unfold insertAddr
    split
    · simp only [risingFrom, Bool.and_eq_true, decide_eq_true_eq]; exact ⟨hlo, by omega, h.2⟩
    · split
      · simp only [risingFrom, Bool.and_eq_true, decide_eq_true_eq]; exact h
      · simp only [risingFrom, Bool.and_eq_true, decide_eq_true_eq]; exact ⟨h.1, ih _ (by omega) h.2⟩

theorem risingFrom_noteFetched (n : Nat) (a : Word32) (l : List Nat) (h : risingFrom 0 l = true) :
    risingFrom 0 (noteFetched n a l) = true := by
  induction n generalizing a l with
  | zero => exact h
  | succ n ih => exact ih _ _ (risingFrom_insertAddr _ _ 0 (by omega) h)

end Sys2Proof.Machine
end

