-- ==== Sys2Proof/Laws/Ops.lean ====
section
/-! SUPPORT. For each shared operation, one lemma that says when it answers a next state and which. -/

namespace Sys2Proof.Machine

@[simp] theorem andThen_next {α β : Type} (a : α) (f : α → Res β) : andThen (.next a) f = f a := rfl
@[simp] theorem andThen_fault {α β : Type} (r : Fault) (f : α → Res β) : andThen (.fault r) f = .fault r := rfl
@[simp] theorem andThen_refused {α β : Type} (r : Refusal) (f : α → Res β) :
    andThen (.refused r) f = .refused r := rfl

theorem andThen_next_iff {α β : Type} (x : Res α) (f : α → Res β) (b : β) :
    andThen x f = .next b ↔ ∃ a, x = .next a ∧ f a = .next b := by
  cases x <;> simp [andThen]

@[simp] theorem raise_ne_next {α : Type} (s : State) (f : Word32 → Fault) (a : α) :
    (raise s f : Res α) = .next a ↔ False := by simp [raise]

@[simp] theorem refuse_ne_next {α : Type} (s : State) (f : Word32 → Refusal) (a : α) :
    (refuse s f : Res α) = .next a ↔ False := by simp [refuse]

theorem next_eq_iff {α : Type} (a b : α) : (Host.Outcome.next a : Res α) = .next b ↔ b = a := by
  simp [eq_comm]

/-- A carrier instruction goes on exactly when no repeat prefix and no LOCK prefix is recorded (42 R143). -/
theorem carrier_next_iff (s : State) (body : Res State) (t : State) :
    carrier s body = .next t ↔ s.dec.rep = none ∧ s.dec.lock = false ∧ body = .next t := by
  unfold carrier
  cases hr : s.dec.rep <;> cases hl : s.dec.lock <;> simp

theorem carrier_of_plain {s : State} (hr : s.dec.rep = none) (hl : s.dec.lock = false) (body : Res State) :
    carrier s body = body := by
  simp [carrier, hr, hl]

/-- A prefix is recorded exactly when its group is free and the length allows another byte (40 R94, R97). -/
theorem recordPrefix_next_iff (already : Bool) (r : DecodeRecord) (s t : State) :
    recordPrefix already r s = .next t ↔ already = false ∧ s.dec.n < Config.maxLen ∧ t = { s with dec := r } := by
  unfold recordPrefix
  cases already
  · by_cases h : Config.maxLen ≤ s.dec.n
    · simp [h, Nat.not_lt.mpr h]
    · simp [h, Nat.lt_of_not_le h, next_eq_iff, -Host.Outcome.next.injEq]
  · simp

theorem checkWrap_next_iff (ad : Size) (off : Word32) (n : Nat) (s : State) (u : Unit) :
    checkWrap ad off n s = .next u ↔ off.toNat + n ≤ topOffset ad + 1 := by
  unfold checkWrap; split <;> simp [*]

theorem checkAdmit_next_iff (seg : Seg) (off : Word32) (n : Nat) (kind : Access) (s : State) (u : Unit) :
    checkAdmit seg off n kind s = .next u ↔ segAdmit seg off n kind s = true := by
  unfold checkAdmit; split <;> simp [*]

theorem checkNoCode_next_iff (a : Word32) (n : Nat) (s : State) (u : Unit) :
    checkNoCode a n s = .next u ↔ ∀ k < n, isCode (a + BitVec.ofNat 32 k) s = false := by
  unfold checkNoCode; split <;> simp_all

/-- What a read answers (20 R32, R33). -/
theorem memRead_next_iff (seg : Seg) (ad : Size) (off : Word32) (n : Nat) (s : State) (v : Word32) :
    memRead seg ad off n s = .next v ↔
      off.toNat + n ≤ topOffset ad + 1 ∧ segAdmit seg off n .read s = true ∧
        v = readBytes n (linear seg off s) s.mem := by
  simp only [memRead, andThen_next_iff, checkWrap_next_iff, checkAdmit_next_iff, next_eq_iff, exists_const]

/-- What a store answers (20 R32, R33, R39). -/
theorem memWrite_next_iff (seg : Seg) (ad : Size) (off : Word32) (n : Nat) (v : Word32) (s t : State) :
    memWrite seg ad off n v s = .next t ↔
      off.toNat + n ≤ topOffset ad + 1 ∧
        (∀ k < n, isCode (linear seg off s + BitVec.ofNat 32 k) s = false) ∧
        segAdmit seg off n .write s = true ∧
        t = { s with mem := writeBytes n (linear seg off s) v s.mem } := by
  simp only [memWrite, andThen_next_iff, checkWrap_next_iff, checkAdmit_next_iff, checkNoCode_next_iff, next_eq_iff,
    exists_const]

/-- All a write to an r/m operand can do: one register view, or a store of the operand's bytes. -/
theorem writeRm_cases {w : Width} {rm : Rm} {v : Word32} {s t : State} (h : writeRm w rm v s = .next t) :
    (∃ r, rm = .reg r ∧ t = writeReg w r v s) ∨
    (∃ m, rm = .mem m ∧
      (offset m s).toNat + w.bytes ≤ topOffset (formSize m) + 1 ∧
      (∀ k < w.bytes, isCode (linear (segment m s) (offset m s) s + BitVec.ofNat 32 k) s = false) ∧
      segAdmit (segment m s) (offset m s) w.bytes .write s = true ∧
      t = { s with mem := writeBytes w.bytes (linear (segment m s) (offset m s) s) v s.mem }) := by
  cases rm with
  | reg r => left; exact ⟨r, rfl, by simpa [writeRm, next_eq_iff, -Host.Outcome.next.injEq] using h⟩
  | mem m => right; exact ⟨m, rfl, (memWrite_next_iff _ _ _ _ _ _ _).mp h⟩

/-- A byte already fetched as code, and a byte of the executing instruction's window, is code (20 R39). -/
theorem isCode_of_fetched {a : Word32} {s : State} (h : a.toNat ∈ s.fetched) : isCode a s = true := by
  simp [isCode, h]

theorem isCode_of_window {k : Nat} {s : State} (h : k < Config.maxLen) :
    isCode (linear .cs s.ip s + BitVec.ofNat 32 k) s = true := by
  have hk : k < 15 := h
  have : (linear .cs s.ip s + BitVec.ofNat 32 k - linear .cs s.ip s).toNat = k := by
    rw [show linear .cs s.ip s + BitVec.ofNat 32 k - linear .cs s.ip s = BitVec.ofNat 32 k by
      apply BitVec.eq_of_toNat_eq; simp]
    simp; omega
  unfold isCode; rw [this]; simp [h]

/-! ## What an instruction's meaning can do -/

/-- Storing a register into an r/m operand. -/
theorem storeReg_next {w : Width} {rm : Rm} {reg : Reg} {s t : State} (h : storeReg w rm reg s = .next t) :
    s.dec.rep = none ∧ s.dec.lock = false ∧ ∃ u, writeRm w rm (readReg w reg s) s = .next u ∧ t = retire u := by
  simpa only [storeReg, carrier_next_iff, andThen_next_iff, next_eq_iff] using h

/-- Loading a register from an r/m operand. -/
theorem loadReg_next {w : Width} {rm : Rm} {reg : Reg} {s t : State} (h : loadReg w reg rm s = .next t) :
    s.dec.rep = none ∧ s.dec.lock = false ∧ ∃ v, readRm w rm s = .next v ∧ t = retire (writeReg w reg v s) := by
  simpa only [loadReg, carrier_next_iff, andThen_next_iff, next_eq_iff] using h

/-- All a prefix can do: its group is free, and one field of the record changes. -/
theorem exec_prefix_cases {i : Instr} (hi : i.isPrefix = true) {s t : State} (h : exec i s = .next t) :
    ∃ d : DecodeRecord, t = { s with dec := d } ∧ d.n = s.dec.n ∧ s.dec.n < Config.maxLen := by
  cases i <;> simp only [Instr.isPrefix, Bool.false_eq_true] at hi <;>
    exact ⟨_, ((recordPrefix_next_iff _ _ _ _).mp h).2.2, rfl, ((recordPrefix_next_iff _ _ _ _).mp h).2.1⟩

/-- All a carrier instruction can do to the state it is given: a register view written, or the bytes of an operand that
touches no code stored, and then the instruction ended. -/
theorem exec_carrier_cases {i : Instr} (hi : i.isPrefix = false) {s t : State} (h : exec i s = .next t) :
    s.dec.rep = none ∧ s.dec.lock = false ∧ ∃ u tgt, t = retireTo tgt u ∧
      (u = s ∨ (∃ w r v, u = writeReg w r v s) ∨
        ∃ n a v, (∀ k < n, isCode (a + BitVec.ofNat 32 k) s = false) ∧
          u = { s with mem := writeBytes n a v s.mem }) := by
  have viaRm : ∀ w rm v, carrier s (andThen (writeRm w rm v s) fun t => .next (retire t)) = .next t →
      s.dec.rep = none ∧ s.dec.lock = false ∧ ∃ u tgt, t = retireTo tgt u ∧
      (u = s ∨ (∃ w r v, u = writeReg w r v s) ∨
        ∃ n a v, (∀ k < n, isCode (a + BitVec.ofNat 32 k) s = false) ∧
          u = { s with mem := writeBytes n a v s.mem }) := by
    intro w rm v h
    obtain ⟨hr, hl, h⟩ := (carrier_next_iff _ _ _).mp h
    obtain ⟨u, hu, h⟩ := (andThen_next_iff _ _ _).mp h
    refine ⟨hr, hl, u, nextIp u, (next_eq_iff _ _).mp h, ?_⟩
    rcases writeRm_cases hu with ⟨r, -, rfl⟩ | ⟨m, -, -, hc, -, rfl⟩
    · exact .inr (.inl ⟨_, _, _, rfl⟩)
    · exact .inr (.inr ⟨_, _, _, hc, rfl⟩)
  have viaReg : ∀ (x : Res Word32) w r, carrier s (andThen x fun v => .next (retire (writeReg w r v s))) = .next t →
      s.dec.rep = none ∧ s.dec.lock = false ∧ ∃ u tgt, t = retireTo tgt u ∧
      (u = s ∨ (∃ w r v, u = writeReg w r v s) ∨
        ∃ n a v, (∀ k < n, isCode (a + BitVec.ofNat 32 k) s = false) ∧
          u = { s with mem := writeBytes n a v s.mem }) := by
    intro x w r h
    obtain ⟨hr, hl, h⟩ := (carrier_next_iff _ _ _).mp h
    obtain ⟨v, -, h⟩ := (andThen_next_iff _ _ _).mp h
    exact ⟨hr, hl, writeReg w r v s, _, (next_eq_iff _ _).mp h, .inr (.inl ⟨_, _, _, rfl⟩)⟩
  cases i <;> simp only [Instr.isPrefix, Bool.true_eq_false] at hi
  case nop =>
    obtain ⟨hr, hl, h⟩ := (carrier_next_iff _ _ _).mp h
    exact ⟨hr, hl, s, nextIp s, (next_eq_iff _ _).mp h, .inl rfl⟩
  case movRm8R8 rm reg => exact viaRm _ _ _ h
  case movRmR rm reg => exact viaRm _ _ _ h
  case movRm8Imm rm imm => exact viaRm _ _ _ h
  case movRmImm rm imm => exact viaRm _ _ _ h
  case movR8Rm8 reg rm => exact viaReg _ _ _ h
  case movRRm reg rm => exact viaReg _ _ _ h
  case lea reg rm => exact viaReg _ _ _ h
  case movR8Imm reg imm => exact viaReg (.next (imm.zeroExtend 32)) _ _ h
  case movRImm reg imm => exact viaReg (.next imm) _ _ h
  case jmp rel =>
    obtain ⟨hr, hl, h⟩ := (carrier_next_iff _ _ _).mp h
    exact ⟨hr, hl, s, _, (next_eq_iff _ _).mp h, .inl rfl⟩
  case loop rel =>
    obtain ⟨hr, hl, h⟩ := (carrier_next_iff _ _ _).mp h
    exact ⟨hr, hl, writeReg (adsize s).width .ecx (loopCount s) s, _, (next_eq_iff _ _).mp h,
      .inr (.inl ⟨_, _, _, rfl⟩)⟩

/-! ## The prefix loop -/

theorem checkLength_next_iff (s : State) (u : Unit) :
    checkLength s = .next u ↔ s.dec.n ≤ Config.maxLen ∧ s.ip.toNat + s.dec.n ≤ topOffset s.env.defAddrSize := by
  unfold checkLength
  by_cases h : Config.maxLen < s.dec.n
  · simp [h, Nat.not_le.mpr h]
  · by_cases h' : s.ip.toNat + s.dec.n ≤ topOffset s.env.defAddrSize <;> simp [h, h', Nat.le_of_not_lt h]

/-- All an instruction's run can do: prefixes change the decoder's record alone, and then one carrier instruction runs
in a state that differs in the record alone and whose length is in range. -/
theorem runInstr_cases (rounds : Nat) {s t : State} (h : runInstr exec rounds s = .next t) :
    ∃ (i : Instr) (d : DecodeRecord), i.isPrefix = false ∧ exec i { s with dec := d } = .next t ∧
      d.n ≤ Config.maxLen ∧ s.ip.toNat + d.n ≤ topOffset s.env.defAddrSize := by
  induction rounds generalizing s with
  | zero => simp [runInstr] at h
  | succ rounds ih =>
    rw [runInstr, andThen_next_iff] at h
    obtain ⟨⟨i, k⟩, -, h⟩ := h
    cases hp : i.isPrefix
    · simp only [hp, Bool.false_eq_true, if_false, andThen_next_iff, checkLength_next_iff, exists_const] at h
      obtain ⟨hl, h⟩ := h
      exact ⟨i, _, hp, h, hl⟩
    · simp only [hp, if_true, andThen_next_iff] at h
      obtain ⟨u, hu, h⟩ := h
      obtain ⟨d, rfl, -⟩ := exec_prefix_cases hp hu
      obtain ⟨j, e, hj⟩ := ih h
      exact ⟨j, e, hj⟩

/-- All a step can do: at `END` nothing, else one instruction's run. -/
theorem step_cases {s t : State} (h : step s = .next t) :
    (ended s = true ∧ t = s) ∨
    (ended s = false ∧ ∃ (i : Instr) (d : DecodeRecord), i.isPrefix = false ∧ exec i { s with dec := d } = .next t ∧
      d.n ≤ Config.maxLen ∧ s.ip.toNat + d.n ≤ topOffset s.env.defAddrSize) := by
  unfold step stepWith at h
  cases he : ended s
  · simp only [he, Bool.false_eq_true, if_false] at h
    obtain ⟨i, d, hi⟩ := runInstr_cases _ h
    exact .inr ⟨rfl, i, d, hi⟩
  · simp only [he, if_true, Host.Outcome.next.injEq] at h
    exact .inl ⟨rfl, h.symm⟩

end Sys2Proof.Machine
end

