-- ==== Sys2Proof/Laws/Admit.lean ====
section
/-! SUPPORT. The list of denials in State stands for the spec's parameter `SegAdmit` without loss: every predicate over
(segment, offset, byte count, kind) is some list's (spec 00_scope.md R5, 20_memory.md R32). -/

namespace Sys2Proof.Machine

theorem every_word_listed : ∃ l : List Word32, ∀ x, x ∈ l := by
  have h : ∀ n : Nat, ∃ l : List (Fin n), ∀ x, x ∈ l := fun n => ⟨List.finRange n, List.mem_finRange⟩
  obtain ⟨l, hl⟩ := h (2 ^ 32)
  exact ⟨l.map BitVec.ofFin, fun x => List.mem_map.mpr ⟨x.toFin, hl _, rfl⟩⟩

/-- The entry that denies one access. -/
def denyOne (seg : Seg) (kind : Access) (n : Nat) (off : Word32) : Denial :=
  { seg := seg, kind := kind, bytes := n, first := off, last := off }

theorem denyOne_hits (seg seg' : Seg) (kind kind' : Access) (n n' : Nat) (off off' : Word32) :
    (denyOne seg kind n off).hits seg' off' n' kind' = true ↔
      seg = seg' ∧ kind = kind' ∧ n = n' ∧ off = off' := by
  simp only [denyOne, Denial.hits, Bool.and_eq_true, beq_iff_eq, decide_eq_true_eq, BitVec.le_def]
  constructor
  · rintro ⟨⟨⟨⟨h1, h2⟩, h3⟩, h4⟩, h5⟩
    exact ⟨h1, h2, h3, BitVec.eq_of_toNat_eq (by omega)⟩
  · rintro ⟨rfl, rfl, rfl, rfl⟩
    simp

/-- Every predicate on accesses of at most `bound` bytes is the admission of some list of denials. -/
theorem denials_express_every_predicate (admits : Seg → Word32 → Nat → Access → Bool) (bound : Nat) :
    ∃ denied : List Denial, ∀ (s : State) seg off n kind, n ≤ bound → s.env.denied = denied →
      segAdmit seg off n kind s = admits seg off n kind := by
  obtain ⟨words, hw⟩ := every_word_listed
  let segs : List Seg := [.cs, .ss, .ds, .es, .fs, .gs]
  let kinds : List Access := [.read, .write, .fetch]
  refine ⟨segs.flatMap fun g => kinds.flatMap fun k => (List.range (bound + 1)).flatMap fun n =>
    (words.filter fun w => !admits g w n k).map fun w => denyOne g k n w, ?_⟩
  intro s seg off n kind hn hs
  have hseg : seg ∈ segs := by cases seg <;> simp [segs]
  have hkind : kind ∈ kinds := by cases kind <;> simp [kinds]
  rw [Bool.eq_iff_iff]
  unfold segAdmit
  rw [hs, Bool.not_eq_true', List.any_eq_false]
  constructor
  · intro h
    by_contra ha
    refine h (denyOne seg kind n off) ?_ ((denyOne_hits _ _ _ _ _ _ _ _).mpr ⟨rfl, rfl, rfl, rfl⟩)
    simp only [List.mem_flatMap, List.mem_map, List.mem_filter, List.mem_range]
    exact ⟨seg, hseg, kind, hkind, n, by omega, off, ⟨hw off, by simpa using ha⟩, rfl⟩
  · intro ha d hd
    simp only [List.mem_flatMap, List.mem_map, List.mem_filter, List.mem_range] at hd
    obtain ⟨g, -, k, -, m, -, w, ⟨-, hna⟩, rfl⟩ := hd
    intro hh
    obtain ⟨rfl, rfl, rfl, rfl⟩ := (denyOne_hits _ _ _ _ _ _ _ _).mp hh
    simp [ha] at hna

end Sys2Proof.Machine
end

