-- ==== Sys2Proof/Laws/Decode.lean ====
section
/-! SUPPORT. The small laws of the decoder and the encoder: fields of a byte, register numbers, multi-byte fields. -/

namespace Sys2Proof

/-! ## Reading on -/

@[simp] theorem Decoded.map_ok {α β : Type} (f : α → β) (a : α) (r : List Byte) :
    Decoded.map f (.ok (a, r)) = .ok (f a, r) := rfl
@[simp] theorem Decoded.map_error {α β : Type} (f : α → β) (e : DecodeStop) :
    Decoded.map f (.error e : Decoded α) = .error e := rfl
@[simp] theorem Decoded.bind_ok {α β : Type} (f : α → List Byte → Decoded β) (a : α) (r : List Byte) :
    Decoded.bind (.ok (a, r)) f = f a r := rfl
@[simp] theorem Decoded.bind_error {α β : Type} (f : α → List Byte → Decoded β) (e : DecodeStop) :
    Decoded.bind (.error e : Decoded α) f = .error e := rfl

theorem Decoded.map_eq_ok {α β : Type} {f : α → β} {x : Decoded α} {b : β} {r : List Byte} :
    Decoded.map f x = .ok (b, r) ↔ ∃ a, x = .ok (a, r) ∧ f a = b := by
  cases x with
  | error e => simp
  | ok p => obtain ⟨a, q⟩ := p; simp; tauto

theorem Decoded.bind_eq_ok {α β : Type} {f : α → List Byte → Decoded β} {x : Decoded α} {p : β × List Byte} :
    Decoded.bind x f = .ok p ↔ ∃ a q, x = .ok (a, q) ∧ f a q = .ok p := by
  cases x with
  | error e => simp
  | ok y => obtain ⟨a, q⟩ := y; simp

theorem Decoded.map_eq_error {α β : Type} {f : α → β} {x : Decoded α} {e : DecodeStop} :
    Decoded.map f x = .error e ↔ x = .error e := by
  cases x with
  | error d => simp
  | ok p => obtain ⟨a, r⟩ := p; simp

theorem Decoded.bind_eq_error {α β : Type} {f : α → List Byte → Decoded β} {x : Decoded α} {e : DecodeStop} :
    Decoded.bind x f = .error e ↔ x = .error e ∨ ∃ a r, x = .ok (a, r) ∧ f a r = .error e := by
  cases x with
  | error d => simp
  | ok p => obtain ⟨a, r⟩ := p; simp

/-! ## Fields -/

@[simp] theorem topField_fieldByte (t : BitVec 2) (m l : BitVec 3) : topField (fieldByte t m l) = t := by
  revert t m l; decide
@[simp] theorem midField_fieldByte (t : BitVec 2) (m l : BitVec 3) : midField (fieldByte t m l) = m := by
  revert t m l; decide
@[simp] theorem lowField_fieldByte (t : BitVec 2) (m l : BitVec 3) : lowField (fieldByte t m l) = l := by
  revert t m l; decide
theorem fieldByte_fields (b : Byte) : fieldByte (topField b) (midField b) (lowField b) = b := by
  revert b; decide

@[simp] theorem Reg.ofNum_num (r : Reg) : Reg.ofNum r.num = r := by cases r <;> rfl
@[simp] theorem Reg.num_ofNum (n : BitVec 3) : (Reg.ofNum n).num = n := by revert n; decide
@[simp] theorem Base16.ofNum_num (b : Base16) : Base16.ofNum b.num = b := by cases b <;> rfl
@[simp] theorem Base16.num_ofNum (n : BitVec 3) : (Base16.ofNum n).num = n := by revert n; decide
@[simp] theorem Scale.ofNum_num (s : Scale) : Scale.ofNum s.num = s := by cases s <;> rfl
@[simp] theorem Scale.num_ofNum (n : BitVec 2) : (Scale.ofNum n).num = n := by revert n; decide

/-! ## Multi-byte fields -/

@[simp] theorem takeByte_cons (b : Byte) (rest : List Byte) : takeByte (b :: rest) = .ok (b, rest) := rfl

theorem join_bytes16 (w : Word16) : w.extractLsb' 8 8 ++ w.extractLsb' 0 8 = w := by
  apply BitVec.eq_of_getLsbD_eq
  intro i hi
  simp only [BitVec.getLsbD_append, BitVec.getLsbD_extractLsb']
  by_cases h : i < 8
  · simp [h]
  · simp [h, show i - 8 < 8 by omega, show 8 + (i - 8) = i by omega]

theorem join_bytes32 (w : Word32) :
    w.extractLsb' 24 8 ++ w.extractLsb' 16 8 ++ w.extractLsb' 8 8 ++ w.extractLsb' 0 8 = w := by
  apply BitVec.eq_of_getLsbD_eq
  intro i hi
  simp only [BitVec.getLsbD_append, BitVec.getLsbD_extractLsb']
  by_cases h : i < 8
  · simp [h]
  by_cases h1 : i < 16
  · simp [h, show i - 8 < 8 by omega, show 8 + (i - 8) = i by omega]
  by_cases h2 : i < 24
  · simp [h, show ¬ i - 8 < 8 by omega, show i - 8 - 8 < 8 by omega, show 16 + (i - 8 - 8) = i by omega]
  · simp [h, show ¬ i - 8 < 8 by omega, show ¬ i - 8 - 8 < 8 by omega, show i - 8 - 8 - 8 < 8 by omega,
      show 24 + (i - 8 - 8 - 8) = i by omega]

@[simp] theorem takeWord16_bytes16 (w : Word16) (rest : List Byte) :
    takeWord16 (bytes16 w ++ rest) = .ok (w, rest) := by
  simp only [bytes16, List.cons_append, List.nil_append, takeWord16, join_bytes16]

@[simp] theorem takeWord32_bytes32 (w : Word32) (rest : List Byte) :
    takeWord32 (bytes32 w ++ rest) = .ok (w, rest) := by
  simp only [bytes32, List.cons_append, List.nil_append, takeWord32, join_bytes32]

@[simp] theorem length_bytes16 (w : Word16) : (bytes16 w).length = 2 := rfl
@[simp] theorem length_bytes32 (w : Word32) : (bytes32 w).length = 4 := rfl

/-- An operand-sized immediate that fits its size is read back. -/
theorem takeImm_immBytes (op : Size) (imm : Word32) (rest : List Byte) (h : immWf op imm = true) :
    takeImm op (immBytes op imm ++ rest) = .ok (imm, rest) := by
  cases op with
  | s16 =>
    have h' : imm.toNat < 65536 := by simpa [immWf] using h
    simp only [takeImm, immBytes, takeWord16_bytes16, Decoded.map_ok]
    congr 2
    apply BitVec.eq_of_toNat_eq
    simp
    omega
  | s32 => simp [takeImm, immBytes]

theorem bytes16_join (b1 b0 : Byte) : bytes16 (b1 ++ b0) = [b0, b1] := by
  simp only [bytes16, List.cons.injEq, and_true]
  refine ⟨?_, ?_⟩ <;> apply BitVec.eq_of_getLsbD_eq <;> intro i hi <;>
    simp only [BitVec.getLsbD_extractLsb', hi, decide_true, Bool.true_and]
  · erw [BitVec.getLsbD_append]; simp [hi]
  · erw [BitVec.getLsbD_append]; simp

theorem bytes32_join (b3 b2 b1 b0 : Byte) : bytes32 (b3 ++ b2 ++ b1 ++ b0) = [b0, b1, b2, b3] := by
  simp only [bytes32, List.cons.injEq, and_true]
  refine ⟨?_, ?_, ?_, ?_⟩ <;> apply BitVec.eq_of_getLsbD_eq <;> intro i hi <;>
    simp only [BitVec.getLsbD_extractLsb', hi, decide_true, Bool.true_and]
  · erw [BitVec.getLsbD_append]; simp [hi]
  · erw [BitVec.getLsbD_append, BitVec.getLsbD_append]; simp [hi]
  · erw [BitVec.getLsbD_append, BitVec.getLsbD_append, BitVec.getLsbD_append]
    simp [hi, show ¬ 16 + i < 8 by omega, show ¬ 16 + i - 8 < 8 by omega, show 16 + i - 8 - 8 = i by omega]
  · erw [BitVec.getLsbD_append, BitVec.getLsbD_append, BitVec.getLsbD_append]
    simp [show ¬ 24 + i < 8 by omega, show ¬ 24 + i - 8 < 8 by omega, show ¬ 24 + i - 8 - 8 < 8 by omega,
      show 24 + i - 8 - 8 - 8 = i by omega]

/-- A field that was read is the field's bytes at the front. -/
theorem takeWord16_eq_ok {bs : List Byte} {w : Word16} {rest : List Byte} (h : takeWord16 bs = .ok (w, rest)) :
    bs = bytes16 w ++ rest := by
  match bs, h with
  | b0 :: b1 :: q, h =>
    simp only [takeWord16, Except.ok.injEq, Prod.mk.injEq] at h
    rw [← h.1, ← h.2]; erw [bytes16_join]; rfl

theorem takeWord32_eq_ok {bs : List Byte} {w : Word32} {rest : List Byte} (h : takeWord32 bs = .ok (w, rest)) :
    bs = bytes32 w ++ rest := by
  match bs, h with
  | b0 :: b1 :: b2 :: b3 :: q, h =>
    simp only [takeWord32, Except.ok.injEq, Prod.mk.injEq] at h
    rw [← h.1, ← h.2]; erw [bytes32_join]; rfl

theorem takeByte_eq_ok {bs : List Byte} {b : Byte} {rest : List Byte} (h : takeByte bs = .ok (b, rest)) :
    bs = b :: rest := by
  match bs, h with
  | c :: q, h =>
    simp only [takeByte, Except.ok.injEq, Prod.mk.injEq] at h
    rw [h.1, h.2]

/-! ## What a ModR/M byte decodes to -/

/-- The mod field of a memory operand is 00, 01 or 10. -/
theorem mode_cases : ∀ md : BitVec 2, md ≠ 3#2 → md = 0#2 ∨ md = 1#2 ∨ md = 2#2 := by decide

/-- All a ModR/M byte can decode to: a register, or a memory form of one of the three tables. -/
theorem decodeRm_ok {ad : Size} {m : Byte} {bs : List Byte} {rm : Rm} {rest : List Byte}
    (h : decodeRm ad m bs = .ok (rm, rest)) :
    (topField m = 3#2 ∧ rm = .reg (Reg.ofNum (lowField m)) ∧ rest = bs) ∨
    (topField m ≠ 3#2 ∧ ad = .s16 ∧ ∃ f, rm = .mem f ∧
      decodeMem16 (topField m) (lowField m) bs = .ok (f, rest)) ∨
    (topField m ≠ 3#2 ∧ ad = .s32 ∧ lowField m = 4#3 ∧ ∃ sb q f, bs = sb :: q ∧ rm = .mem f ∧
      decodeSib (topField m) sb q = .ok (f, rest)) ∨
    (topField m ≠ 3#2 ∧ ad = .s32 ∧ lowField m ≠ 4#3 ∧ ∃ f, rm = .mem f ∧
      decodeMem32 (topField m) (lowField m) bs = .ok (f, rest)) := by
  unfold decodeRm at h
  by_cases h3 : topField m = 3#2
  · simp only [h3, if_true, Except.ok.injEq, Prod.mk.injEq] at h
    exact .inl ⟨h3, h.1.symm, h.2.symm⟩
  · simp only [h3, if_false] at h
    cases ad with
    | s16 =>
      obtain ⟨f, hf, rfl⟩ := Decoded.map_eq_ok.mp h
      exact .inr (.inl ⟨h3, rfl, f, rfl, hf⟩)
    | s32 =>
      by_cases h4 : lowField m = 4#3
      · simp only [sibFollows, h4, bne_iff_ne.mpr h3, beq_self_eq_true, Bool.and_self, if_true] at h
        obtain ⟨f, hf, rfl⟩ := Decoded.map_eq_ok.mp h
        obtain ⟨sb, q, hb, hf⟩ := Decoded.bind_eq_ok.mp hf
        exact .inr (.inr (.inl ⟨h3, rfl, h4, sb, q, f, takeByte_eq_ok hb, rfl, hf⟩))
      · have : sibFollows .s32 m = false := by simp [sibFollows, h4]
        simp only [this, Bool.false_eq_true, if_false] at h
        obtain ⟨f, hf, rfl⟩ := Decoded.map_eq_ok.mp h
        exact .inr (.inr (.inr ⟨h3, rfl, h4, f, rfl, hf⟩))

/-- The displacement read for a 16-bit form has the mod field asked for, and its bytes stood at the front. -/
theorem takeDisp16_ok {md : BitVec 2} {bs d rest} (h : takeDisp16 md bs = .ok (d, rest)) (h3 : md ≠ 3#2) :
   d.mode = md ∧ bs = d.encode ++ rest := by
  unfold takeDisp16 at h
  have := mode_cases md h3
  rcases this with rfl | rfl | rfl
  · simp at h; simp [← h.1, h.2, Disp16.mode, Disp16.encode]
  · obtain ⟨a, ha, rfl⟩ := Decoded.map_eq_ok.mp h
    exact ⟨rfl, takeByte_eq_ok ha⟩
  · obtain ⟨a, ha, rfl⟩ := Decoded.map_eq_ok.mp h
    exact ⟨rfl, takeWord16_eq_ok ha⟩

/-- The displacement read for a 32-bit form has the mod field asked for, and its bytes stood at the front. -/
theorem takeDisp32_ok {md : BitVec 2} {bs d rest} (h : takeDisp32 md bs = .ok (d, rest)) (h3 : md ≠ 3#2) :
   d.mode = md ∧ bs = d.encode ++ rest := by
  unfold takeDisp32 at h
  have := mode_cases md h3
  rcases this with rfl | rfl | rfl
  · simp at h; simp [← h.1, h.2, Disp32.mode, Disp32.encode]
  · obtain ⟨a, ha, rfl⟩ := Decoded.map_eq_ok.mp h
    exact ⟨rfl, takeByte_eq_ok ha⟩
  · obtain ⟨a, ha, rfl⟩ := Decoded.map_eq_ok.mp h
    exact ⟨rfl, takeWord32_eq_ok ha⟩

/-- All a row of Table 17-2 can decode to. -/
theorem decodeMem16_ok {md : BitVec 2} {r : BitVec 3} {bs f rest} (h : decodeMem16 md r bs = .ok (f, rest))
    (h3 : md ≠ 3#2) :
    (md = 0#2 ∧ r = 6#3 ∧ ∃ d, f = .abs16 d ∧ bs = bytes16 d ++ rest) ∨
    (¬ (md = 0#2 ∧ r = 6#3) ∧ ∃ d : Disp16, f = .based16 (Base16.ofNum r) d ∧ d.mode = md ∧
        bs = d.encode ++ rest) := by
  unfold decodeMem16 at h
  split at h
  · rename_i hc
    obtain ⟨a, ha, rfl⟩ := Decoded.map_eq_ok.mp h
    exact .inl ⟨hc.1, hc.2, a, rfl, takeWord16_eq_ok ha⟩
  · rename_i hc
    obtain ⟨a, ha, rfl⟩ := Decoded.map_eq_ok.mp h
    exact .inr ⟨hc, a, rfl, takeDisp16_ok ha h3⟩

/-- All a row of Table 17-3 without SIB can decode to. -/
theorem decodeMem32_ok {md : BitVec 2} {r : BitVec 3} {bs f rest} (h : decodeMem32 md r bs = .ok (f, rest))
    (h3 : md ≠ 3#2) :
    (md = 0#2 ∧ r = 5#3 ∧ ∃ d, f = .abs32 d ∧ bs = bytes32 d ++ rest) ∨
    (¬ (md = 0#2 ∧ r = 5#3) ∧ ∃ d : Disp32, f = .based32 (Reg.ofNum r) d ∧ d.mode = md ∧ bs = d.encode ++ rest) := by
  unfold decodeMem32 at h
  split at h
  · rename_i hc
    obtain ⟨a, ha, rfl⟩ := Decoded.map_eq_ok.mp h
    exact .inl ⟨hc.1, hc.2, a, rfl, takeWord32_eq_ok ha⟩
  · rename_i hc
    obtain ⟨a, ha, rfl⟩ := Decoded.map_eq_ok.mp h
    exact .inr ⟨hc, a, rfl, takeDisp32_ok ha h3⟩

/-- All a SIB byte can decode to. -/
theorem decodeSib_ok {md : BitVec 2} {s : Byte} {bs f rest} (h : decodeSib md s bs = .ok (f, rest)) (h3 : md ≠ 3#2) :
    (md = 0#2 ∧ lowField s = 5#3 ∧ ∃ d, f = .sibAbs (Scale.ofNum (topField s)) (Reg.ofNum (midField s)) d ∧
        bs = bytes32 d ++ rest) ∨
    (¬ (md = 0#2 ∧ lowField s = 5#3) ∧
        ∃ d : Disp32, f = .sib (Scale.ofNum (topField s)) (Reg.ofNum (midField s)) (Reg.ofNum (lowField s)) d ∧
            d.mode = md ∧ bs = d.encode ++ rest) := by
  unfold decodeSib at h
  split at h
  · rename_i hc
    obtain ⟨a, ha, rfl⟩ := Decoded.map_eq_ok.mp h
    exact .inl ⟨hc.1, hc.2, a, rfl, takeWord32_eq_ok ha⟩
  · rename_i hc
    obtain ⟨a, ha, rfl⟩ := Decoded.map_eq_ok.mp h
    exact .inr ⟨hc, a, rfl, takeDisp32_ok ha h3⟩

/-! ## Lengths -/

theorem length_encode_disp16 (d : Disp16) : d.encode.length ≤ 2 := by cases d <;> simp [Disp16.encode]
theorem length_encode_disp32 (d : Disp32) : d.encode.length ≤ 4 := by cases d <;> simp [Disp32.encode]

/-- A ModR/M byte with its SIB byte and displacement takes 1 to 6 bytes. -/
theorem length_encode_rm (reg : BitVec 3) (rm : Rm) :
    1 ≤ (rm.encode reg).length ∧ (rm.encode reg).length ≤ 6 := by
  match rm with
  | .reg r => simp [Rm.encode]
  | .mem (.abs16 d) => simp [Rm.encode]
  | .mem (.based16 b d) => have := length_encode_disp16 d; simp [Rm.encode]; omega
  | .mem (.abs32 d) => simp [Rm.encode]
  | .mem (.based32 b d) => have := length_encode_disp32 d; simp [Rm.encode]; omega
  | .mem (.sib s i b d) => have := length_encode_disp32 d; simp [Rm.encode]; omega
  | .mem (.sibAbs s i d) => simp [Rm.encode]

theorem length_immBytes (op : Size) (imm : Word32) : (immBytes op imm).length ≤ 4 := by
  cases op <;> simp [immBytes]

/-- A prefix is encoded in one byte. -/
theorem length_encode_prefix {p : Instr} (hp : p.isPrefix = true) (op : Size) : (encode op p).length = 1 := by
  cases p <;> simp [Instr.isPrefix] at hp <;> rfl

/-- A carrier form takes at most as many bytes as a unit may have. -/
theorem length_encode_le (op : Size) (i : Instr) : (encode op i).length ≤ Config.maxUnit := by
  have h1 := fun reg rm => (length_encode_rm reg rm).2
  have h2 := length_immBytes op
  cases i <;> simp [encode, Config.maxUnit] <;> grind

/-! ## Where bytes are wanting -/

theorem takeByte_error_length {bs : List Byte} {e : DecodeStop} (h : takeByte bs = .error e) : bs.length < 1 := by
  cases bs <;> simp [takeByte] at h ⊢

theorem takeImm_error_length {op : Size} {bs : List Byte} {e : DecodeStop} (h : takeImm op bs = .error e) :
    bs.length < 4 := by
  by_contra hl
  rcases bs with _ | ⟨a, _ | ⟨b, _ | ⟨c, _ | ⟨d, q⟩⟩⟩⟩ <;> simp at hl
  cases op <;> simp [takeImm, takeWord16, takeWord32] at h

theorem takeDisp16_error_length {md : BitVec 2} {bs : List Byte} {e : DecodeStop} (h : takeDisp16 md bs = .error e) :
    bs.length < 2 := by
  by_contra hl
  rcases bs with _ | ⟨a, _ | ⟨b, q⟩⟩ <;> simp at hl
  unfold takeDisp16 at h
  split at h <;> simp [takeWord16] at h

theorem takeDisp32_error_length {md : BitVec 2} {bs : List Byte} {e : DecodeStop} (h : takeDisp32 md bs = .error e) :
    bs.length < 4 := by
  by_contra hl
  rcases bs with _ | ⟨a, _ | ⟨b, _ | ⟨c, _ | ⟨d, q⟩⟩⟩⟩ <;> simp at hl
  unfold takeDisp32 at h
  split at h <;> simp [takeWord32] at h

/-- An r/m operand that was read took at most a SIB byte and four displacement bytes. -/
theorem decodeRm_length {ad : Size} {m : Byte} {bs : List Byte} {rm : Rm} {rest : List Byte}
    (h : decodeRm ad m bs = .ok (rm, rest)) : bs.length ≤ rest.length + 5 := by
  have d16 := length_encode_disp16
  have d32 := length_encode_disp32
  rcases decodeRm_ok h with ⟨h3, rfl, rfl⟩ | ⟨h3, rfl, f, rfl, hf⟩ | ⟨h3, rfl, h4, sb, q, f, rfl, rfl, hf⟩ |
    ⟨h3, rfl, h4, f, rfl, hf⟩
  · simp
  · rcases decodeMem16_ok hf h3 with ⟨_, _, d, rfl, rfl⟩ | ⟨_, d, rfl, _, rfl⟩
    · simp; omega
    · have := d16 d; simp; omega
  · rcases decodeSib_ok hf h3 with ⟨_, _, d, rfl, rfl⟩ | ⟨_, d, rfl, _, rfl⟩
    · simp; omega
    · have := d32 d; simp; omega
  · rcases decodeMem32_ok hf h3 with ⟨_, _, d, rfl, rfl⟩ | ⟨_, d, rfl, _, rfl⟩
    · simp; omega
    · have := d32 d; simp; omega

/-- The decoder asks for a further byte only while it has fewer than a unit can take. -/
theorem decode_truncated_length {op ad : Size} {bs : List Byte} (h : decode op ad bs = .error .truncated) :
    bs.length < Config.maxUnit := by
  have rmLen : ∀ {m q e}, decodeRm ad m q = .error e → q.length < 5 := by
    intro m q e h
    have w16 : ∀ {q : List Byte} {e}, takeWord16 q = .error e → q.length < 4 := fun {q e} h => by
      have := takeDisp16_error_length (md := 2#2) (Decoded.map_eq_error.mpr h); omega
    have w32 : ∀ {q : List Byte} {e}, takeWord32 q = .error e → q.length < 4 := fun h =>
      takeDisp32_error_length (md := 2#2) (Decoded.map_eq_error.mpr h)
    unfold decodeRm at h
    split at h
    · cases h
    · cases ad with
      | s16 =>
        have h := Decoded.map_eq_error.mp h
        unfold decodeMem16 at h
        split at h
        · have := w16 (Decoded.map_eq_error.mp h); omega
        · have := takeDisp16_error_length (Decoded.map_eq_error.mp h); omega
      | s32 =>
        dsimp only at h
        split at h
        · rcases Decoded.bind_eq_error.mp (Decoded.map_eq_error.mp h) with h | ⟨s, r, hs, h⟩
          · have := takeByte_error_length h; omega
          · rw [takeByte_eq_ok hs, List.length_cons]
            unfold decodeSib at h
            split at h
            · have := w32 (Decoded.map_eq_error.mp h); omega
            · have := takeDisp32_error_length (Decoded.map_eq_error.mp h); omega
        · have h := Decoded.map_eq_error.mp h
          unfold decodeMem32 at h
          split at h
          · have := w32 (Decoded.map_eq_error.mp h); omega
          · have := takeDisp32_error_length (Decoded.map_eq_error.mp h); omega
  cases bs with
  | nil => simp [Config.maxUnit]
  | cons b bs =>
    have modRm : ∀ {f : Reg × Rm → Instr}, (takeModRm ad bs).map f = .error .truncated → bs.length < 6 := by
      intro f h
      rcases Decoded.bind_eq_error.mp (Decoded.map_eq_error.mp h) with h | ⟨m, r, h1, h⟩
      · have := takeByte_error_length h; omega
      · have := rmLen (Decoded.map_eq_error.mp h); rw [takeByte_eq_ok h1, List.length_cons]; omega
    have byte : ∀ {f : Byte → Instr}, (takeByte bs).map f = .error .truncated → bs.length < 1 := fun h =>
      takeByte_error_length (Decoded.map_eq_error.mp h)
    have digit : ∀ {g : Rm → List Byte → Decoded Instr}, (∀ rm r, g rm r = .error .truncated → r.length < 4) →
        (takeDigit0 b ad bs).bind g = .error .truncated → bs.length < 10 := by
      intro g hg h
      rcases Decoded.bind_eq_error.mp h with h | ⟨rm, r, h1, h⟩
      · rcases Decoded.bind_eq_error.mp h with h | ⟨m, r, h1, h⟩
        · have := takeByte_error_length h; omega
        · split at h
          · have := rmLen h; rw [takeByte_eq_ok h1, List.length_cons]; omega
          · cases h
      · have h4 := hg _ _ h
        obtain ⟨m, q, h2, h3⟩ := Decoded.bind_eq_ok.mp h1
        split at h3
        · have := decodeRm_length h3; rw [takeByte_eq_ok h2, List.length_cons]; omega
        · cases h3
    unfold decode at h
    cases hk : lookupOp b with
    | none => simp [hk] at h
    | some k =>
      simp only [hk] at h
      rw [List.length_cons, Config.maxUnit]
      cases k <;> simp only [decodeKind, reduceCtorEq] at h
      case movRm8R8 => have := modRm h; omega
      case movRmR => have := modRm h; omega
      case movR8Rm8 => have := modRm h; omega
      case movRRm => have := modRm h; omega
      case lea => have := modRm h; omega
      case movR8Imm => have := byte h; omega
      case movRImm => have := takeImm_error_length (Decoded.map_eq_error.mp h); omega
      case movRm8Imm =>
        have := digit (fun rm r h => by have := takeByte_error_length (Decoded.map_eq_error.mp h); omega) h
        omega
      case movRmImm =>
        have := digit (fun rm r h => takeImm_error_length (Decoded.map_eq_error.mp h)) h
        omega
      case jmp => have := byte h; omega
      case loop => have := byte h; omega
      case escape =>
        rcases Decoded.bind_eq_error.mp h with h | ⟨_, _, _, h⟩
        · have := takeByte_error_length h; omega
        · cases h

end Sys2Proof
end

