-- ==== Sys2Proof/Laws/Fetch.lean ====
section
/-! SUPPORT. What the fetch of an instruction's bytes depends on, and what it finds. -/

namespace Sys2Proof.Machine

/-- The fetched bytes depend on `ip`, memory and the parameters alone. -/
theorem fetchRun_congr {s t : State} (h1 : s.ip = t.ip) (h2 : s.env = t.env) (h3 : s.mem = t.mem) (n k : Nat) :
    fetchRun n k s = fetchRun n k t := by
  have : ∀ k b, fetchByte k s = .next b ↔ fetchByte k t = .next b := by
    intro k b
    unfold fetchByte
    rw [h1, h2]
    split
    · simp only [andThen_next_iff, checkAdmit_next_iff, segAdmit, h2, h3, linear]
    · simp
  induction n generalizing k with
  | zero => rfl
  | succ n ih =>
    unfold fetchRun
    cases hs : fetchByte k s with
    | next b => rw [(this k b).mp hs, ih]
    | fault f =>
      cases ht : fetchByte k t with
      | next b => rw [(this k b).mpr ht] at hs; cases hs
      | _ => rfl
    | refused f =>
      cases ht : fetchByte k t with
      | next b => rw [(this k b).mpr ht] at hs; cases hs
      | _ => rfl

/-- Where the bytes `bs` can be fetched from byte `k` on, the run of fetched bytes begins with them. -/
theorem fetchRun_of_fetches {s : State} : ∀ (n k : Nat) (bs : List Byte),
    (∀ j b, bs[j]? = some b → fetchByte (k + j) s = .next b) → bs.length ≤ n → ∃ rest, fetchRun n k s = bs ++ rest := by
  intro n
  induction n with
  | zero =>
    intro k bs _ h
    exact ⟨[], by simp [List.length_eq_zero_iff.mp (Nat.le_zero.mp h), fetchRun]⟩
  | succ n ih =>
    intro k bs h hl
    cases bs with
    | nil => exact ⟨_, rfl⟩
    | cons b bs =>
      have h0 := h 0 b rfl
      obtain ⟨rest, hr⟩ := ih (k+1) bs (fun j c hc => by
        rw [show k + 1 + j = k + (j + 1) by omega]; exact h (j + 1) c hc) (by simpa using hl)
      refine ⟨rest, ?_⟩
      simp [fetchRun, show fetchByte k s = .next b from h0, hr]

/-- Where the byte after `bs` cannot be fetched, the run of fetched bytes is `bs`. -/
theorem fetchRun_of_stop {s : State} : ∀ (n k : Nat) (bs : List Byte),
    (∀ j b, bs[j]? = some b → fetchByte (k + j) s = .next b) → bs.length < n →
    (∀ b, fetchByte (k + bs.length) s ≠ .next b) → fetchRun n k s = bs := by
  intro n
  induction n with
  | zero => intro k bs _ h; omega
  | succ n ih =>
    intro k bs h hl hs
    cases bs with
    | nil =>
      unfold fetchRun
      cases hf : fetchByte k s with
      | next b => exact absurd hf (hs b)
      | fault _ => rfl
      | refused _ => rfl
    | cons b bs =>
      have h0 : fetchByte k s = .next b := h 0 b rfl
      have hr := ih (k + 1) bs
        (fun j c hc => by rw [show k + 1 + j = k + (j + 1) by omega]; exact h (j + 1) c hc) (by simpa using hl)
        (fun c => by rw [show k + 1 + bs.length = k + (b :: bs).length by simp; omega]; exact hs c)
      simp [fetchRun, h0, hr]

end Sys2Proof.Machine
end

