-- ==== Sys2Proof/Laws/PerInstr.lean ====
section
/-! SUPPORT. The statements made per instruction. `UnitLength`: the encoding of a unit takes 1 to `Config.maxUnit` bytes,
and a prefix exactly one (spec 30_encoding.md R50, R65; 40_prefixes.md R81 to R92). -/

namespace Sys2Proof.Laws.UnitLength

/-- The encoding of `i` has 1 to 11 bytes under either operand size, and one byte if `i` is a prefix. -/
def Statement (i : Instr) : Prop :=
  ∀ op : Size, 1 ≤ (encode op i).length ∧ (encode op i).length ≤ Config.maxUnit ∧
    (i.isPrefix = true → (encode op i).length = 1)

theorem rep : Statement .rep := fun _ => by simp [encode, Config.maxUnit]
theorem repe : Statement .repe := fun _ => by simp [encode, Config.maxUnit]
theorem repne : Statement .repne := fun _ => by simp [encode, Config.maxUnit]
theorem lock : Statement .lock := fun _ => by simp [encode, Config.maxUnit]
theorem cs : Statement .cs := fun _ => by simp [encode, Config.maxUnit]
theorem ss : Statement .ss := fun _ => by simp [encode, Config.maxUnit]
theorem ds : Statement .ds := fun _ => by simp [encode, Config.maxUnit]
theorem es : Statement .es := fun _ => by simp [encode, Config.maxUnit]
theorem fs : Statement .fs := fun _ => by simp [encode, Config.maxUnit]
theorem gs : Statement .gs := fun _ => by simp [encode, Config.maxUnit]
theorem opsize : Statement .opsize := fun _ => by simp [encode, Config.maxUnit]
theorem adsize : Statement .adsize := fun _ => by simp [encode, Config.maxUnit]
theorem nop : Statement .nop := fun _ => by simp [encode, Config.maxUnit]

theorem movRm8R8 (rm : Rm) (reg : Reg) : Statement (.movRm8R8 rm reg) := fun _ => by
  have := length_encode_rm reg.num rm
  simp [encode, Config.maxUnit, Instr.isPrefix]; omega
theorem movRmR (rm : Rm) (reg : Reg) : Statement (.movRmR rm reg) := fun _ => by
  have := length_encode_rm reg.num rm
  simp [encode, Config.maxUnit, Instr.isPrefix]; omega
theorem movR8Rm8 (reg : Reg) (rm : Rm) : Statement (.movR8Rm8 reg rm) := fun _ => by
  have := length_encode_rm reg.num rm
  simp [encode, Config.maxUnit, Instr.isPrefix]; omega
theorem movRRm (reg : Reg) (rm : Rm) : Statement (.movRRm reg rm) := fun _ => by
  have := length_encode_rm reg.num rm
  simp [encode, Config.maxUnit, Instr.isPrefix]; omega
theorem lea (reg : Reg) (rm : Rm) : Statement (.lea reg rm) := fun _ => by
  have := length_encode_rm reg.num rm
  simp [encode, Config.maxUnit, Instr.isPrefix]; omega
theorem movR8Imm (reg : Reg) (imm : Byte) : Statement (.movR8Imm reg imm) := fun _ => by
  simp [encode, Config.maxUnit, Instr.isPrefix]
theorem movRImm (reg : Reg) (imm : Word32) : Statement (.movRImm reg imm) := fun op => by
  have := length_immBytes op imm
  simp [encode, Config.maxUnit, Instr.isPrefix]; omega
theorem movRm8Imm (rm : Rm) (imm : Byte) : Statement (.movRm8Imm rm imm) := fun _ => by
  have := length_encode_rm (0#3) rm
  simp [encode, Config.maxUnit, Instr.isPrefix]; omega
theorem movRmImm (rm : Rm) (imm : Word32) : Statement (.movRmImm rm imm) := fun op => by
  have := length_encode_rm (0#3) rm
  have := length_immBytes op imm
  simp [encode, Config.maxUnit, Instr.isPrefix]; omega
theorem jmp (rel : Byte) : Statement (.jmp rel) := fun _ => by simp [encode, Config.maxUnit, Instr.isPrefix]
theorem loop (rel : Byte) : Statement (.loop rel) := fun _ => by simp [encode, Config.maxUnit, Instr.isPrefix]

end Sys2Proof.Laws.UnitLength
end

