-- ==== Sys2Proof/Laws/Prefixes.lean ====
section
/-! SUPPORT. What a step does with the prefixes at an instruction's front: one lemma, `step_after_prefixes`, for every
statement about a prefixed instruction. -/

namespace Sys2Proof.Machine

open Sys2Proof.Claims

/-- Is nothing recorded yet in the group of this number? -/
def groupFree (d : DecodeRecord) : Nat → Bool
  | 0 => d.rep.isNone
  | 1 => !d.lock
  | 2 => d.segovr.isNone
  | 3 => !d.opovr
  | 4 => !d.adovr
  | _ => true

@[simp] theorem groupFree_setN (d : DecodeRecord) (n g : Nat) : groupFree { d with n := n } g = groupFree d g := by
  match g with
  | 0 | 1 | 2 | 3 | 4 | _ + 5 => rfl

@[simp] theorem recorded_setN (p : Instr) (d : DecodeRecord) (n : Nat) :
    recorded { d with n := n } p = { recorded d p with n := n } := by
  cases p <;> rfl

/-- A prefix byte decodes, under any sizes and whatever follows it, to a prefix of the same group and record. -/
theorem decode_prefix {p : Instr} (hp : p.isPrefix = true) (op op' ad : Size) (rest : List Byte) :
    ∃ p', decode op ad (encode op' p ++ rest) = .ok (p', rest) ∧ p'.isPrefix = true ∧
      prefixGroup p' = prefixGroup p ∧ ∀ d, recorded d p' = recorded d p := by
  cases p <;> simp [Instr.isPrefix] at hp <;> exact ⟨_, rfl, rfl, rfl, fun _ => rfl⟩

/-- A prefix whose group is free is recorded, where the length allows another byte. -/
theorem exec_prefix {p : Instr} (hp : p.isPrefix = true) (s : State)
    (hf : ∀ g, prefixGroup p = some g → groupFree s.dec g = true) (hn : s.dec.n < Config.maxLen) :
    exec p s = .next { s with dec := recorded s.dec p } := by
  cases p <;> simp [Instr.isPrefix] at hp <;> refine (recordPrefix_next_iff _ _ _ _).mpr ⟨?_, hn, rfl⟩ <;>
    simpa [prefixGroup, groupFree] using hf

/-- A prefix whose group is recorded is refused. -/
theorem exec_prefix_refused {p : Instr} {g : Nat} (hp : prefixGroup p = some g) (s : State)
    (hf : groupFree s.dec g = false) : exec p s = .refused (.redundantPrefix s.ip) := by
  have h : ∀ already r, already = true → recordPrefix already r s = .refused (.redundantPrefix s.ip) := by
    rintro _ r rfl; rfl
  cases p <;> simp only [prefixGroup, Option.some.injEq, reduceCtorEq] at hp <;> subst hp <;>
    exact h _ _ (by simpa [groupFree, Option.isSome_iff_ne_none] using hf)

/-- Recording a prefix takes its own group and leaves the others as they were. -/
theorem groupFree_recorded {p : Instr} (d : DecodeRecord) (g : Nat) (hp : p.isPrefix = true) :
    groupFree (recorded d p) g = (groupFree d g && decide (prefixGroup p ≠ some g)) := by
  cases p <;> simp only [Instr.isPrefix, Bool.false_eq_true] at hp <;>
    match g with
    | 0 | 1 | 2 | 3 | 4 | _ + 5 => simp [groupFree, recorded, prefixGroup]

theorem foldl_recorded_setN (ps : List Instr) (d : DecodeRecord) (n : Nat) :
    ps.foldl recorded { d with n := n } = { ps.foldl recorded d with n := n } := by
  induction ps generalizing d with
  | nil => rfl
  | cons p ps ih => rw [List.foldl_cons, recorded_setN, ih, List.foldl_cons]

/-- After a run of prefixes a group is free exactly when it was before and no prefix of the run is in it. -/
theorem groupFree_foldl {ps : List Instr} (hp : ∀ p ∈ ps, p.isPrefix = true) (d : DecodeRecord) (g : Nat) :
    groupFree (ps.foldl recorded d) g = (groupFree d g && decide (some g ∉ ps.map prefixGroup)) := by
  induction ps generalizing d with
  | nil => simp
  | cons p ps ih =>
    rw [List.foldl_cons, ih (fun q hq => hp q (by simp [hq])), groupFree_recorded d g (hp p (by simp))]
    by_cases h : prefixGroup p = some g <;> simp [h, Ne.symm, eq_comm]

/-- Prefixes of pairwise different groups are at most five. -/
theorem length_prefixes_le {ps : List Instr} (hp : ∀ p ∈ ps, p.isPrefix = true)
    (hnd : (ps.map prefixGroup).Nodup) : ps.length ≤ 5 := by
  have hsub : ps.map prefixGroup ⊆ [some 0, some 1, some 2, some 3, some 4] := by
    intro g hg
    obtain ⟨p, h1, rfl⟩ := List.mem_map.mp hg
    have := hp p h1
    cases p <;> simp [Instr.isPrefix, prefixGroup] at this ⊢
  simpa using (hnd.subperm hsub).length_le

theorem length_withPrefixes {ps : List Instr} (hp : ∀ p ∈ ps, p.isPrefix = true) (tail : List Byte) :
    (withPrefixes ps tail).length = ps.length + tail.length := by
  induction ps with
  | nil => simp [withPrefixes]
  | cons p ps ih =>
    have h := ih (fun q hq => hp q (by simp [hq]))
    simp only [withPrefixes, List.flatMap_cons, List.length_append, List.length_cons,
      length_encode_prefix (hp p (by simp))] at h ⊢
    omega

/-- An instruction's bytes are its prefixes' and then the carrier form's. -/
theorem instrBytes_eq {ps : List Instr} (hp : ∀ p ∈ ps, p.isPrefix = true) (op : Size) (i : Instr) :
    instrBytes op ps i = withPrefixes ps (encode op i) := by
  have : ps.flatMap (encode op) = ps.flatMap (encode .s16) := by
    induction ps with
    | nil => rfl
    | cons p ps ih =>
      have h1 : encode op p = encode .s16 p := by
        have := hp p (by simp)
        cases p <;> simp [Instr.isPrefix] at this <;> rfl
      simp only [List.flatMap_cons, h1, ih (fun q hq => hp q (by simp [hq]))]
  simp only [instrBytes, withPrefixes, this]

/-- The prefix loop over prefixes whose groups are free: each is recorded and its byte counted. -/
theorem runInstr_prefixes (ps : List Instr) (rounds : Nat) (s : State) (hp : ∀ p ∈ ps, p.isPrefix = true)
    (hnd : (ps.map prefixGroup).Nodup) (hfree : ∀ p ∈ ps, ∀ g, prefixGroup p = some g → groupFree s.dec g = true)
    (hn : s.dec.n + ps.length < Config.maxLen)
    (hb : ∀ j b, (withPrefixes ps [])[j]? = some b → fetchByte (s.dec.n + j) s = .next b) :
    runInstr exec (rounds + ps.length) s =
      runInstr exec rounds { s with dec := { ps.foldl recorded s.dec with n := s.dec.n + ps.length } } := by
  induction ps generalizing s with
  | nil => rfl
  | cons p ps ih =>
    have hpp := hp p (by simp)
    obtain ⟨p', hd, hp', hg, hrec⟩ := decode_prefix hpp (opsize s) .s16 (adsize s) (fetchRun 10 (s.dec.n + 1) s)
    obtain ⟨b, hb0⟩ := List.length_eq_one_iff.mp (length_encode_prefix hpp .s16)
    have hrun : fetchRun Config.maxUnit s.dec.n s = encode .s16 p ++ fetchRun 10 (s.dec.n + 1) s := by
      have h0 : fetchByte s.dec.n s = .next b := hb 0 b (by simp [withPrefixes, hb0])
      simp [Config.maxUnit, fetchRun, h0, hb0]
    have hnx : decodeNext s = .next (p', 1) := by
      unfold decodeNext
      simp only [hrun, hd]
      simp [hb0]
    have hex : exec p' (consume 1 s) = .next { s with dec := { recorded s.dec p with n := s.dec.n + 1 } } := by
      rw [exec_prefix hp' (consume 1 s)]
      · rw [hrec, consume, recorded_setN]
      · intro g h
        rw [consume, groupFree_setN]
        exact hfree p (by simp) g (by rw [← hg, h])
      · simp only [consume_n, List.length_cons] at hn ⊢; omega
    rw [show rounds + (p :: ps).length = rounds + ps.length + 1 from rfl, runInstr, hnx]
    simp only [andThen_next, hp', if_true, hex]
    rw [ih]
    · simp only [List.foldl_cons, foldl_recorded_setN, List.length_cons, Nat.add_assoc, Nat.add_comm 1]
    · exact fun q hq => hp q (by simp [hq])
    · simp only [List.map_cons, List.nodup_cons] at hnd; exact hnd.2
    · intro q hq g hgq
      rw [groupFree_setN, groupFree_recorded _ _ hpp, hfree q (by simp [hq]) g hgq, Bool.true_and,
        decide_eq_true_eq, ← hgq]
      simp only [List.map_cons, List.nodup_cons, List.mem_map, not_exists, not_and] at hnd
      exact fun e => hnd.1 q hq e.symm
    · simp only [List.length_cons] at hn; simp only; omega
    · intro j c hc
      have := hb (j + 1) c (by simpa [withPrefixes, hb0] using hc)
      rw [show s.dec.n + (j + 1) = s.dec.n + 1 + j by omega] at this
      exact this

/-- A step over recordable prefixes and the bytes `tail`: what is left of the step in the state whose record holds the
prefixes, at a point where `tail` can be fetched. -/
theorem step_after_prefixes {s : State} {ps : List Instr} {tail : List Byte} (he : ended s = false)
    (hp : ∀ p ∈ ps, p.isPrefix = true) (hnd : (ps.map prefixGroup).Nodup) (hf : Fetches (withPrefixes ps tail) s) :
    let v : State := { s with dec := recordOf ps ps.length }
    step s = runInstr exec (Config.maxLen - 1 - ps.length + 1) v ∧ ps.length ≤ 5 ∧
      ∀ j b, tail[j]? = some b → fetchByte (v.dec.n + j) v = .next b := by
  have h5 := length_prefixes_le hp hnd
  have hlen := length_withPrefixes hp []
  have hcat : withPrefixes ps tail = withPrefixes ps [] ++ tail := by simp [withPrefixes]
  refine ⟨?_, h5, ?_⟩
  · unfold step stepWith
    simp only [he, Bool.false_eq_true, if_false]
    have h := runInstr_prefixes ps (Config.maxLen - 1 - ps.length + 1) (beginInstr s) hp hnd
      (fun p _ g h2 => by cases p <;> simp [prefixGroup] at h2 <;> subst h2 <;> rfl)
      (by simp [DecodeRecord.empty, Config.maxLen]; omega)
      (fun j b hb => by
        have h1 : (withPrefixes ps tail)[j]? = some b := by
          obtain ⟨h, -⟩ := List.getElem?_eq_some_iff.mp hb
          rw [hcat, List.getElem?_append_left h, hb]
        have h2 : fetchByte j s = .next b := hf j b h1
        have e : (beginInstr s).dec.n + j = j := by simp [DecodeRecord.empty]
        rw [e]; exact h2)
    rw [show Config.maxLen - 1 - ps.length + 1 + ps.length = Config.maxLen by simp [Config.maxLen]; omega] at h
    rw [h]
    simp [beginInstr, recordOf, DecodeRecord.empty]
  · intro j b hb
    refine hf (ps.length + j) b ?_
    rw [hcat, List.getElem?_append_right (by simp [hlen]), ← hb]
    simp [hlen]

end Sys2Proof.Machine
end

