-- ==== Sys2Proof/Tests/Slice0.lean ====
section
/-! SUPPORT. The model's own tests. Expected results come from the spec's vectors (95_test_vectors.md, by section) or are
written out from the rule cited; then, for every obligation with hypotheses, a concrete input that meets them. -/

namespace Sys2Proof.Tests

open Sys2Proof.Machine Sys2Proof.Claims

/-! ## Helpers -/

/-- The register file of reset, all zero. -/
def zeroRegs : Gprs := State.reset.regs

/-- Sizes, registers, `ip` and the code at CS:ip; the bases are the set `SB` of 95, which is the model's at reset. -/
def start (op ad : Size) (regs : Gprs) (ip : Word32) (code : List Byte) : State :=
  placeBytes code 0 { State.reset with
    regs := regs, ip := ip, env := { State.reset.env with defOpSize := op, defAddrSize := ad } }

/-- Bytes of data from a linear address on. -/
def withData (a : Nat) (bytes : List Byte) (s : State) : State :=
  { s with mem := (bytes.zipIdx a).foldl (fun m p => setMemByte p.2 p.1 m) s.mem }

/-- All segments based at 0. -/
def flat (s : State) : State :=
  { s with env := { s.env with segBase := { cs := 0, ss := 0, ds := 0, es := 0, fs := 0, gs := 0 } } }

/-- The environment rejects these accesses. -/
def denying (l : List Denial) (s : State) : State := { s with env := { s.env with denied := l } }

/-- Does the step answer a next state with this property? -/
def nextHas (r : Res State) (f : State → Bool) : Bool :=
  match r with
  | .next t => f t
  | .fault _ => false
  | .refused _ => false

/-- The fault a step answers, if it does. -/
def faultOf (r : Res State) : Option Fault :=
  match r with
  | .next _ => none
  | .fault f => some f
  | .refused _ => none

/-- The refusal a step answers, if it does. -/
def refusalOf (r : Res State) : Option Refusal :=
  match r with
  | .next _ => none
  | .fault _ => none
  | .refused f => some f

/-- Registers and `ip` after the step. -/
def regsIp (regs : Gprs) (ip : Word32) (t : State) : Bool := decide (t.regs = regs) && decide (t.ip = ip)

/-- Bytes of memory from a linear address on. -/
def bytesAt (a : Nat) (bytes : List Byte) (t : State) : Bool :=
  (bytes.zipIdx a).all fun p => memByte t.mem p.2 == p.1

/-- A carrier instruction of `n` bytes is about to run. -/
def counted (n : Nat) (s : State) : State := { s with dec := { DecodeRecord.empty with n := n } }

/-! ## Well-formedness: one ill-formed term for each check -/

theorem test_wf_abs16_needs_adsize16 : (Instr.movRRm .eax (.mem (.abs16 0))).wf .s16 .s32 = false := by decide
theorem test_wf_based16_needs_adsize16 :
    (Instr.movRRm .eax (.mem (.based16 .bx .absent))).wf .s16 .s32 = false := by decide
theorem test_wf_no_bp_without_disp :
    (Instr.movR8Rm8 .eax (.mem (.based16 .bp .absent))).wf .s16 .s16 = false := by decide
theorem test_wf_abs32_needs_adsize32 : (Instr.lea .eax (.mem (.abs32 0))).wf .s32 .s16 = false := by decide
theorem test_wf_based32_needs_adsize32 :
    (Instr.lea .eax (.mem (.based32 .eax .absent))).wf .s32 .s16 = false := by decide
theorem test_wf_no_esp_without_sib :
    (Instr.movRm8R8 (.mem (.based32 .esp (.d8 0))) .eax).wf .s32 .s32 = false := by decide
theorem test_wf_no_ebp_without_disp :
    (Instr.movRmR (.mem (.based32 .ebp .absent)) .eax).wf .s32 .s32 = false := by decide
theorem test_wf_sib_needs_adsize32 :
    (Instr.movRmR (.mem (.sib .x1 .eax .eax .absent)) .eax).wf .s32 .s16 = false := by decide
theorem test_wf_no_sib_ebp_without_disp :
    (Instr.movRm8Imm (.mem (.sib .x1 .eax .ebp .absent)) 0).wf .s32 .s32 = false := by decide
theorem test_wf_sibAbs_needs_adsize32 :
    (Instr.movRm8Imm (.mem (.sibAbs .x1 .eax 0)) 0).wf .s32 .s16 = false := by decide
theorem test_wf_imm16_fits : (Instr.movRImm .eax 0x10000).wf .s16 .s16 = false := by decide
theorem test_wf_store_imm16_fits : (Instr.movRmImm (.reg .eax) 0x10000).wf .s16 .s16 = false := by decide
theorem test_wf_imm32_any : (Instr.movRImm .eax 0xFFFFFFFF).wf .s32 .s16 = true := by decide

/-! ## Decoding: every constructor from a word written out from the spec's encoding (40 R81 to R92, 42, 95 section 2) -/

theorem test_decode_prefixes :
    ([0xF3, 0xF2, 0xF0, 0x2E, 0x36, 0x3E, 0x26, 0x64, 0x65, 0x66, 0x67] : List Byte).map
      (fun b => (decode .s32 .s32 [b, 0x90]).toOption) =
    ([.rep, .repne, .lock, .cs, .ss, .ds, .es, .fs, .gs, .opsize, .adsize] : List Instr).map
      (fun i => some (i, [0x90])) := by decide

/-- REPE/REPZ is the byte F3 (40 R82), which decodes to its other name. -/
theorem test_decode_repe : decode .s16 .s16 (encode .s16 .repe) = .ok (.rep, []) := by rfl
theorem test_decode_nop : decode .s32 .s32 [0x90] = .ok (.nop, []) := by rfl
/-- 88 /r: ModR/M 27 = 00 100 111. -/
theorem test_decode_movRm8R8 :
    decode .s16 .s16 [0x88, 0x27] = .ok (.movRm8R8 (.mem (.based16 .bx .absent)) .esp, []) := by rfl
/-- 89 /r: ModR/M 04 = 00 000 100, SIB 24 = 00 100 100. -/
theorem test_decode_movRmR :
    decode .s32 .s32 [0x89, 0x04, 0x24] = .ok (.movRmR (.mem (.sib .x1 .esp .esp .absent)) .eax, []) := by rfl
/-- 8A /r: ModR/M 05 = 00 000 101. -/
theorem test_decode_movR8Rm8 :
    decode .s16 .s16 [0x8A, 0x05] = .ok (.movR8Rm8 .eax (.mem (.based16 .di .absent)), []) := by rfl
/-- 8B /r, the same ModR/M byte 80 under the two address sizes (95 section 2). -/
theorem test_decode_movRRm :
    decode .s32 .s32 [0x8B, 0x80, 0x78, 0x56, 0x34, 0x12] =
      .ok (.movRRm .eax (.mem (.based32 .eax (.d32 0x12345678))), []) ∧
    decode .s32 .s16 [0x8B, 0x80, 0x78, 0x56] =
      .ok (.movRRm .eax (.mem (.based16 .bxSi (.d16 0x5678))), []) := by exact ⟨rfl, rfl⟩
/-- 8B 04 24 under a 16-bit address size: no SIB byte, the byte 24 is left (95 section 2). -/
theorem test_decode_no_sib16 :
    decode .s16 .s16 [0x8B, 0x04, 0x24] = .ok (.movRRm .eax (.mem (.based16 .si .absent)), [0x24]) := by rfl
/-- SIB base 101 under mod 00 and mod 01 (95 section 2). -/
theorem test_decode_sib_base101 :
    decode .s32 .s32 [0x8B, 0x04, 0x25, 0x78, 0x56, 0x34, 0x12] =
      .ok (.movRRm .eax (.mem (.sibAbs .x1 .esp 0x12345678)), []) ∧
    decode .s32 .s32 [0x8B, 0x44, 0x25, 0x08] =
      .ok (.movRRm .eax (.mem (.sib .x1 .esp .ebp (.d8 8))), []) := by exact ⟨rfl, rfl⟩
/-- 8D /r: ModR/M 4C = 01 001 100, SIB 98 = 10 011 000 (95 P1). -/
theorem test_decode_lea :
    decode .s32 .s32 [0x8D, 0x4C, 0x98, 0x08] = .ok (.lea .ecx (.mem (.sib .x4 .ebx .eax (.d8 8))), []) := by rfl
/-- B0+r ib: B4 = 10110 100. -/
theorem test_decode_movR8Imm : decode .s32 .s32 [0xB4, 0x7F] = .ok (.movR8Imm .esp 0x7F, []) := by rfl
/-- B8+r iw/id (95 section 2). -/
theorem test_decode_movRImm :
    decode .s16 .s16 [0xBF, 0x34, 0x12] = .ok (.movRImm .edi 0x1234, []) ∧
    decode .s32 .s32 [0xB8, 0x78, 0x56, 0x34, 0x12] = .ok (.movRImm .eax 0x12345678, []) := by exact ⟨rfl, rfl⟩
/-- C6 /0 ib: ModR/M 46 = 01 000 110, disp8, then the immediate. -/
theorem test_decode_movRm8Imm :
    decode .s16 .s16 [0xC6, 0x46, 0xFC, 0x2A] =
      .ok (.movRm8Imm (.mem (.based16 .bp (.d8 0xFC))) 0x2A, []) := by rfl
/-- C7 /0 iw/id: 66 shortens the immediate, 67 the displacement (95 section 2). -/
theorem test_decode_movRmImm :
    decode .s16 .s32 [0xC7, 0x05, 0x44, 0x33, 0x22, 0x11, 0xEF, 0xBE] =
      .ok (.movRmImm (.mem (.abs32 0x11223344)) 0xBEEF, []) ∧
    decode .s32 .s16 [0xC7, 0x06, 0x34, 0x12, 0xEF, 0xBE, 0xAD, 0xDE] =
      .ok (.movRmImm (.mem (.abs16 0x1234)) 0xDEADBEEF, []) := by exact ⟨rfl, rfl⟩
theorem test_decode_jmp : decode .s32 .s32 [0xEB, 0xFE] = .ok (.jmp 0xFE, []) := by rfl
theorem test_decode_loop : decode .s16 .s16 [0xE2, 0xFB] = .ok (.loop 0xFB, []) := by rfl
/-- The refused rows of 95 section 2. -/
theorem test_decode_refused :
    decode .s32 .s32 [0x0F, 0x01, 0x00] = .error (.unknownOpcode 0x0F) ∧
    decode .s16 .s16 [0xC7, 0xC8, 0x34, 0x12] = .error (.unknownOpcode 0xC7) ∧
    decode .s16 .s16 [0xC6, 0x48, 0x01, 0x00] = .error (.unknownOpcode 0xC6) ∧
    decode .s16 .s16 [0xA1, 0x00, 0x10] = .error (.unknownOpcode 0xA1) := by exact ⟨rfl, rfl, rfl, rfl⟩
/-- No two rows of the opcode map overlap. -/
theorem test_rows_disjoint : ∀ b : Byte, (opTable.filter fun r => b &&& r.mask == r.pattern).length ≤ 1 := by
  decide
theorem test_table_word : decodeTableWord 16 0x7FB4 = some (.movR8Imm .esp 0x7F) := by decide

/-! ## Effective addresses (95 section 3) -/

/-- The segment, the offset and the number of bytes taken of an r/m operand. -/
def formOf (ad : Size) (regs : Gprs) (bs : List Byte) : Option (Seg × Word32 × Nat) :=
  match takeModRm ad bs with
  | .ok ((_, .mem m), rest) =>
    let s : State := { State.reset with regs := regs }
    some (segment m s, offset m s, bs.length - rest.length)
  | .ok ((_, .reg _), _) => none
  | .error _ => none

def regs16 : Gprs :=
  { zeroRegs with ebx := 0xAAAA8000, ebp := 0xCCCC7FFF, esi := 0xBBBB9000, edi := 0x0000FFFF }

def regs32 : Gprs :=
  { eax := 0x00001000, ecx := 0x00000003, edx := 0x80000000, ebx := 0xFFFFFFF0, esp := 0x0000FFF0,
    ebp := 0x7FFFFFFF, esi := 0x00000010, edi := 0xFFFFFFFF }

/-- Does each row's bytes give its segment, offset and length? -/
def rowsHold (ad : Size) (regs : Gprs) (rows : List (List Byte × Seg × Word32)) : Bool :=
  rows.all fun r => formOf ad regs r.1 == some (r.2.1, r.2.2, r.1.length)

/-- 95 section 3.1, mod 00. -/
theorem test_forms16_mod0 : rowsHold .s16 regs16
    [([0x00], .ds, 0x1000), ([0x01], .ds, 0x7FFF), ([0x02], .ss, 0x0FFF), ([0x03], .ss, 0x7FFE),
     ([0x04], .ds, 0x9000), ([0x05], .ds, 0xFFFF), ([0x06, 0x01, 0x80], .ds, 0x8001), ([0x07], .ds, 0x8000)] =
    true := by decide

/-- 95 section 3.1, mod 01. -/
theorem test_forms16_mod1 : rowsHold .s16 regs16
    [([0x40, 0x80], .ds, 0x0F80), ([0x41, 0x80], .ds, 0x7F7F), ([0x42, 0x80], .ss, 0x0F7F),
     ([0x43, 0x80], .ss, 0x7F7E), ([0x44, 0x80], .ds, 0x8F80), ([0x45, 0x80], .ds, 0xFF7F),
     ([0x46, 0x80], .ss, 0x7F7F), ([0x47, 0x80], .ds, 0x7F80)] = true := by decide

/-- 95 section 3.1, mod 10. -/
theorem test_forms16_mod2 : rowsHold .s16 regs16
    [([0x80, 0x01, 0x80], .ds, 0x9001), ([0x81, 0x01, 0x80], .ds, 0x0000), ([0x82, 0x01, 0x80], .ss, 0x9000),
     ([0x83, 0x01, 0x80], .ss, 0xFFFF), ([0x84, 0x01, 0x80], .ds, 0x1001), ([0x85, 0x01, 0x80], .ds, 0x8000),
     ([0x86, 0x01, 0x80], .ss, 0x0000), ([0x87, 0x01, 0x80], .ds, 0x0001)] = true := by decide

/-- 95 section 3.2, mod 00. -/
theorem test_forms32_mod0 : rowsHold .s32 regs32
    [([0x08], .ds, 0x00001000), ([0x09], .ds, 0x00000003), ([0x0A], .ds, 0x80000000), ([0x0B], .ds, 0xFFFFFFF0),
     ([0x0D, 0x01, 0x00, 0x00, 0x80], .ds, 0x80000001), ([0x0E], .ds, 0x00000010), ([0x0F], .ds, 0xFFFFFFFF)] =
    true := by decide

/-- 95 section 3.2, mod 01. -/
theorem test_forms32_mod1 : rowsHold .s32 regs32
    [([0x48, 0xF0], .ds, 0x00000FF0), ([0x49, 0xF0], .ds, 0xFFFFFFF3), ([0x4A, 0xF0], .ds, 0x7FFFFFF0),
     ([0x4B, 0xF0], .ds, 0xFFFFFFE0), ([0x4D, 0xF0], .ss, 0x7FFFFFEF), ([0x4E, 0xF0], .ds, 0x00000000),
     ([0x4F, 0xF0], .ds, 0xFFFFFFEF)] = true := by decide

/-- 95 section 3.2, mod 10. -/
theorem test_forms32_mod2 : rowsHold .s32 regs32
    [([0x88, 0x01, 0x00, 0x00, 0x80], .ds, 0x80001001), ([0x89, 0x01, 0x00, 0x00, 0x80], .ds, 0x80000004),
     ([0x8A, 0x01, 0x00, 0x00, 0x80], .ds, 0x00000001), ([0x8B, 0x01, 0x00, 0x00, 0x80], .ds, 0x7FFFFFF1),
     ([0x8D, 0x01, 0x00, 0x00, 0x80], .ss, 0x00000000), ([0x8E, 0x01, 0x00, 0x00, 0x80], .ds, 0x80000011),
     ([0x8F, 0x01, 0x00, 0x00, 0x80], .ds, 0x80000000)] = true := by decide

/-- 95 section 3.3, each base with index ECX*4. -/
theorem test_forms_sib_bases : rowsHold .s32 regs32
    [([0x0C, 0x88], .ds, 0x0000100C), ([0x0C, 0x89], .ds, 0x0000000F), ([0x0C, 0x8A], .ds, 0x8000000C),
     ([0x0C, 0x8B], .ds, 0xFFFFFFFC), ([0x0C, 0x8C], .ss, 0x0000FFFC),
     ([0x0C, 0x8D, 0x01, 0x00, 0x00, 0x80], .ds, 0x8000000D), ([0x0C, 0x8E], .ds, 0x0000001C),
     ([0x0C, 0x8F], .ds, 0x0000000B)] = true := by decide

/-- 95 section 3.3, each index *2 with base EAX. -/
theorem test_forms_sib_indexes : rowsHold .s32 regs32
    [([0x0C, 0x40], .ds, 0x00003000), ([0x0C, 0x48], .ds, 0x00001006), ([0x0C, 0x50], .ds, 0x00001000),
     ([0x0C, 0x58], .ds, 0x00000FE0), ([0x0C, 0x60], .ds, 0x00001000), ([0x0C, 0x68], .ds, 0x00000FFE),
     ([0x0C, 0x70], .ds, 0x00001020), ([0x0C, 0x78], .ds, 0x00000FFE)] = true := by decide

/-- 95 section 3.3, no index at each scale. -/
theorem test_forms_sib_no_index : rowsHold .s32 regs32
    [([0x0C, 0x24], .ss, 0x0000FFF0), ([0x0C, 0x64], .ss, 0x0000FFF0), ([0x0C, 0xA4], .ss, 0x0000FFF0),
     ([0x0C, 0xE4], .ss, 0x0000FFF0), ([0x4C, 0x65, 0xF0], .ss, 0x7FFFFFEF)] = true := by decide

/-- 95 section 3.3, base 101 under each mod, one register twice, sums that wrap. -/
theorem test_forms_sib_rest : rowsHold .s32 regs32
    [([0x0C, 0xD5, 0x01, 0x00, 0x00, 0x80], .ds, 0x80000001), ([0x4C, 0xD5, 0xF0], .ss, 0x7FFFFFEF),
     ([0x8C, 0xD5, 0x01, 0x00, 0x00, 0x80], .ss, 0x00000000), ([0x0C, 0x00], .ds, 0x00002000),
     ([0x0C, 0x9B], .ds, 0xFFFFFFB0), ([0x0C, 0xFF], .ds, 0xFFFFFFF7), ([0x4C, 0x2C, 0xF0], .ss, 0x8000FFDF),
     ([0x8C, 0x0C, 0x01, 0x00, 0x00, 0x80], .ss, 0x8000FFF4)] = true := by decide

/-! ## One step of each carrier instruction (95 section 4) -/

theorem test_nop : nextHas (step (start .s32 .s32 zeroRegs 0x100 [0x90])) (regsIp zeroRegs 0x101) = true := by decide

theorem test_movRm8R8_stores_ah :
    nextHas (step (start .s16 .s16 { zeroRegs with eax := 0x1234, ebx := 0x200 } 0x100 [0x88, 0x27])) (fun t =>
      regsIp { zeroRegs with eax := 0x1234, ebx := 0x200 } 0x102 t && bytesAt 0x20200 [0x12, 0] t) = true := by decide
theorem test_movRm8R8_register :
    nextHas (step (start .s32 .s32 { zeroRegs with eax := 0xAABB1234 } 0x100 [0x88, 0xE0]))
      (regsIp { zeroRegs with eax := 0xAABB1212 } 0x102) = true := by decide

theorem test_movRmR_stores_at_esp :
    nextHas (step (start .s32 .s32 { zeroRegs with eax := 0xDEADBEEF, esp := 0xFFF0 } 0x100 [0x89, 0x04, 0x24]))
      (fun t => regsIp { zeroRegs with eax := 0xDEADBEEF, esp := 0xFFF0 } 0x103 t &&
        bytesAt 0x1FFF0 [0xEF, 0xBE, 0xAD, 0xDE, 0] t) = true := by decide
theorem test_movRmR_opsize_keeps_upper :
    nextHas (step (start .s32 .s32 { zeroRegs with eax := 0x11112222, ebx := 0xCAFEBABE } 0x100 [0x66, 0x89, 0xD8]))
      (regsIp { zeroRegs with eax := 0x1111BABE, ebx := 0xCAFEBABE } 0x103) = true := by decide

theorem test_movR8Rm8_es_override :
    nextHas (step (withData 0x30010 [0x5C]
        (start .s16 .s16 { zeroRegs with eax := 0xAAAAAAAA, edi := 0x10 } 0x100 [0x26, 0x8A, 0x05])))
      (regsIp { zeroRegs with eax := 0xAAAAAA5C, edi := 0x10 } 0x103) = true := by decide
theorem test_movR8Rm8_at_top :
    nextHas (step (withData 0x2FFFF [0x5A] (start .s16 .s16 { zeroRegs with ebx := 0xFFFF } 0x100 [0x8A, 0x07])))
      (regsIp { zeroRegs with eax := 0x5A, ebx := 0xFFFF } 0x102) = true := by decide

theorem test_movRRm_bp_disp8 :
    nextHas (step (withData 0x11FFE [0xCD, 0xAB]
        (start .s16 .s16 { zeroRegs with eax := 0xAAAA0000, ebp := 0x2000 } 0x100 [0x8B, 0x46, 0xFE])))
      (regsIp { zeroRegs with eax := 0xAAAAABCD, ebp := 0x2000 } 0x103) = true := by decide
theorem test_movRRm_adsize :
    nextHas (step (withData 0x20400 [0x11, 0x22, 0x33, 0x44]
        (start .s32 .s32 { zeroRegs with ebx := 0xFFFF0400 } 0x100 [0x67, 0x8B, 0x07])))
      (regsIp { zeroRegs with eax := 0x44332211, ebx := 0xFFFF0400 } 0x103) = true := by decide

theorem test_lea_opsize32_adsize16 :
    nextHas (step (start .s16 .s16 { zeroRegs with eax := 0x55550000 } 0x100 [0x66, 0x8D, 0x47, 0xFF]))
      (regsIp { zeroRegs with eax := 0x0000FFFF } 0x104) = true := by decide
theorem test_lea_opsize16_adsize32 :
    nextHas (step (start .s16 .s16 { zeroRegs with eax := 0x0001FFFF, ecx := 1 } 0x100 [0x67, 0x8D, 0x04, 0x48]))
      (regsIp { zeroRegs with eax := 0x00010001, ecx := 1 } 0x104) = true := by decide

theorem test_movR8Imm_ah :
    nextHas (step (start .s32 .s32 { zeroRegs with eax := 0x11223344 } 0x100 [0xB4, 0x7F]))
      (regsIp { zeroRegs with eax := 0x11227F44 } 0x102) = true := by decide

theorem test_movRImm_opsize :
    nextHas (step (start .s32 .s32 { zeroRegs with edi := 0xAAAAAAAA } 0x100 [0x66, 0xBF, 0x34, 0x12]))
      (regsIp { zeroRegs with edi := 0xAAAA1234 } 0x104) = true := by decide
theorem test_movRImm_32 :
    nextHas (step (start .s32 .s32 { zeroRegs with eax := 0xAAAAAAAA } 0x100 [0xB8, 0x78, 0x56, 0x34, 0x12]))
      (regsIp { zeroRegs with eax := 0x12345678 } 0x105) = true := by decide

theorem test_movRm8Imm_bp :
    nextHas (step (start .s16 .s16 { zeroRegs with ebp := 0x1000 } 0x100 [0xC6, 0x46, 0xFC, 0x2A])) (fun t =>
      regsIp { zeroRegs with ebp := 0x1000 } 0x104 t && bytesAt 0x10FFB [0, 0x2A, 0] t) = true := by decide
theorem test_movRm8Imm_bl :
    nextHas (step (start .s32 .s32 { zeroRegs with ebx := 0x11223344 } 0x100 [0xC6, 0xC3, 0x55]))
      (regsIp { zeroRegs with ebx := 0x11223355 } 0x103) = true := by decide

theorem test_movRmImm_sib :
    nextHas (step (start .s32 .s32 { zeroRegs with eax := 0x1000, ecx := 0x10 } 0x100
        [0xC7, 0x84, 0x88, 0x00, 0x01, 0x00, 0x00, 0xEF, 0xBE, 0xAD, 0xDE])) (fun t =>
      regsIp { zeroRegs with eax := 0x1000, ecx := 0x10 } 0x10B t &&
        bytesAt 0x21140 [0xEF, 0xBE, 0xAD, 0xDE, 0] t) = true := by decide
theorem test_movRmImm_cx :
    nextHas (step (start .s16 .s16 { zeroRegs with ecx := 0xAAAAAAAA } 0x100 [0xC7, 0xC1, 0x34, 0x12]))
      (regsIp { zeroRegs with ecx := 0xAAAA1234 } 0x104) = true := by decide

theorem test_jmp_32 :
    nextHas (step (start .s32 .s32 zeroRegs 0x10 [0xEB, 0x80])) (regsIp zeroRegs 0xFFFFFF92) = true := by decide
theorem test_jmp_masked :
    nextHas (step (start .s16 .s16 zeroRegs 0x10 [0xEB, 0x80])) (regsIp zeroRegs 0x0000FF92) = true := by decide

theorem test_loop_count_reaches_zero_and_wraps :
    nextHas (step (start .s32 .s32 { zeroRegs with ecx := 1 } 0x100 [0xE2, 0xFB]))
      (regsIp { zeroRegs with ecx := 0 } 0x102) = true ∧
    nextHas (step (start .s16 .s16 { zeroRegs with ecx := 0xABCD0000 } 0x100 [0xE2, 0xFB]))
      (regsIp { zeroRegs with ecx := 0xABCDFFFF } 0xFD) = true := by decide
theorem test_loop_adsize_selects_ecx :
    nextHas (step (start .s16 .s16 { zeroRegs with ecx := 0x10000 } 0x100 [0x67, 0xE2, 0xFB]))
      (regsIp { zeroRegs with ecx := 0xFFFF } 0xFE) = true := by decide

/-! ## Prefixes, faults and refusals (95 sections 2 and 4.1) -/

theorem test_prefix_order :
    ([[0x3E, 0x66, 0x67, 0x8B, 0x07], [0x67, 0x66, 0x3E, 0x8B, 0x07]] : List (List Byte)).all (fun bs =>
      nextHas (step (withData 0x20300 [1, 2, 3, 4] (start .s16 .s16 { zeroRegs with edi := 0x300 } 0x100 bs)))
        (regsIp { zeroRegs with eax := 0x04030201, edi := 0x300 } 0x105)) = true := by decide
theorem test_ss_override :
    nextHas (step (start .s16 .s16 { zeroRegs with eax := 0x1234, ebx := 0x200 } 0x100 [0x36, 0x89, 0x07]))
      (bytesAt 0x10200 [0x34, 0x12]) = true := by decide
theorem test_cs_override_ignored_by_lea :
    nextHas (step (start .s16 .s16 zeroRegs 0x100 [0x2E, 0x8D, 0x06, 0x34, 0x12]))
      (regsIp { zeroRegs with eax := 0x1234 } 0x105) = true := by decide
theorem test_fs_gs_overrides :
    ([[0x64, 0x8A, 0x05], [0x65, 0x8A, 0x05]] : List (List Byte)).all (fun bs =>
      nextHas (step (withData 0x10 [0x5C] (start .s16 .s16 { zeroRegs with edi := 0x10 } 0x100 bs)))
        (regsIp { zeroRegs with eax := 0x5C, edi := 0x10 } 0x103)) = true := by decide
theorem test_longest_carrier :
    nextHas (step (start .s16 .s16 { zeroRegs with eax := 0x1000, ecx := 0x10 } 0x100
        [0x2E, 0x66, 0x67, 0xC7, 0x84, 0x88, 0x00, 0x01, 0x00, 0x00, 0xEF, 0xBE, 0xAD, 0xDE]))
      (fun t => decide (t.ip = 0x10E) && bytesAt 0x1140 [0xEF, 0xBE, 0xAD, 0xDE] t) = true := by decide
/-- 30 R66 by its own count: 16 bytes. -/
theorem test_sixteen_bytes_too_long :
    faultOf (step (start .s16 .s16 zeroRegs 0x100 [0xF3, 0xF0, 0x2E, 0x66, 0x67, 0xC7, 0x84, 0x88, 0x00, 0x01, 0x00,
      0x00, 0xEF, 0xBE, 0xAD, 0xDE])) = some (.instructionTooLong 0x100) := by decide
theorem test_redundant_prefixes :
    ([[0x26, 0x2E, 0x8B, 0x07], [0x66, 0x66, 0x90], [0xF3, 0xF2, 0x90], [0xF0, 0x2E, 0x36, 0x66, 0x67, 0xF3, 0xF2]] :
      List (List Byte)).all (fun bs =>
        refusalOf (step (start .s16 .s16 zeroRegs 0x100 bs)) == some (.redundantPrefix 0x100)) = true := by decide
theorem test_repeat_refused :
    ([[0xF3, 0x90], [0xF2, 0x8B, 0xC3], [0xF0, 0xF3, 0x90]] : List (List Byte)).all (fun bs =>
      refusalOf (step (start .s32 .s32 zeroRegs 0x100 bs)) == some (.repOnNonString 0x100)) = true := by decide
theorem test_lock_refused :
    refusalOf (step (start .s16 .s16 zeroRegs 0x100 [0xF0, 0x89, 0x07])) = some (.lockNotModelled 0x100) := by decide
theorem test_unknown_opcodes :
    ([[0x0F, 0x01, 0x00], [0xC7, 0xC8, 0x34, 0x12], [0xA1, 0x00, 0x10]] : List (List Byte)).map (fun bs =>
      refusalOf (step (start .s16 .s16 zeroRegs 0x100 bs))) =
    [some (.unknownOpcode 0x100 0x0F), some (.unknownOpcode 0x100 0xC7), some (.unknownOpcode 0x100 0xA1)] := by
  decide
theorem test_lea_register_faults :
    faultOf (step (start .s32 .s32 zeroRegs 0x100 [0x8D, 0xC0])) = some (.invalidOpcode 0x100) := by decide
theorem test_offset_wrap :
    refusalOf (step (start .s16 .s16 { zeroRegs with ebx := 0xFFFF } 0x100 [0x8B, 0x07])) =
      some (.offsetWrap 0x100) ∧
    refusalOf (step (start .s32 .s32 { zeroRegs with ebx := 0xFFFFFFFD } 0x100 [0x89, 0x03])) =
      some (.offsetWrap 0x100) := by decide
theorem test_fetch_wrap :
    refusalOf (step (start .s16 .s16 zeroRegs 0xFFFF [0xB0, 0x01])) = some (.offsetWrap 0xFFFF) ∧
    refusalOf (step (start .s16 .s16 zeroRegs 0xFFFF [0x90])) = some (.offsetWrap 0xFFFF) ∧
    nextHas (step (start .s16 .s16 zeroRegs 0xFFFE [0x90])) (regsIp zeroRegs 0xFFFF) = true := by decide
theorem test_store_into_code :
    refusalOf (step (flat (start .s32 .s32 zeroRegs 0x100 [0x89, 0x05, 0x00, 0x01, 0x00, 0x00]))) =
      some (.storeIntoCode 0x100) ∧
    refusalOf (step (flat (start .s32 .s32 zeroRegs 0x100 [0xC6, 0x05, 0x0E, 0x01, 0x00, 0x00, 0x90]))) =
      some (.storeIntoCode 0x100) ∧
    nextHas (step (flat (start .s32 .s32 zeroRegs 0x100 [0xC6, 0x05, 0x0F, 0x01, 0x00, 0x00, 0x90])))
      (fun t => regsIp zeroRegs 0x107 t && bytesAt 0x10F [0x90] t) = true := by decide
/-- 95 section 4.1: DS data are admitted only where off + n - 1 is at most 0FFFh. -/
theorem test_access_not_admitted :
    ([([0x89, 0x05, 0x00, 0x10, 0x00, 0x00], 0x1000), ([0x89, 0x05, 0xFD, 0x0F, 0x00, 0x00], 0xFFD)] :
      List (List Byte × Word32)).all (fun p =>
        faultOf (step (denying [⟨.ds, .write, 4, 0xFFD, 0xFFFFFFFF⟩] (start .s32 .s32 zeroRegs 0x100 p.1))) ==
          some (.accessNotAdmitted 0x100 .ds p.2 4 .write)) = true := by decide
/-- 95 section 4.1: fetches at CS offsets from 200h are rejected. -/
theorem test_fetch_not_admitted :
    faultOf (step (denying [⟨.cs, .fetch, 1, 0x200, 0xFFFFFFFF⟩]
      (start .s32 .s32 zeroRegs 0x1FE [0xB8, 0x78, 0x56, 0x34, 0x12]))) =
      some (.accessNotAdmitted 0x1FE .cs 0x200 1 .fetch) := by decide
/-- 95 P5: code stored outside the window and not fetched before runs; `step` is applied twice after the store. -/
theorem test_stored_code_runs :
    nextHas (Host.Core.run core 3 (flat (start .s16 .s16 zeroRegs 0x100
      [0xC6, 0x06, 0x10, 0x01, 0x90, 0xEB, 0x09]))) (regsIp zeroRegs 0x111) = true := by decide
theorem test_reset_memory : Memory.wf State.reset.mem = true := by decide
/-- The first word a host places is the first instruction that runs. -/
theorem test_placed_word_runs :
    nextHas (step (State.reset.withFetchWord 16 0x7FB4)) (regsIp { zeroRegs with eax := 0x7F00 } 2) = true := by decide

/-! ## Witnesses: for every obligation with hypotheses, inputs that meet them -/

/-- A step's answer is some next state. -/
theorem next_of_nextHas {r : Res State} {f : State → Bool} (h : nextHas r f = true) : ∃ t, r = .next t := by
  cases r with
  | next t => exact ⟨t, rfl⟩
  | fault _ => cases h
  | refused _ => cases h

/-- Bytes that a run of fetches finds can be fetched. -/
theorem fetches_of_run {s : State} : ∀ (bs : List Byte) (k : Nat), fetchRun bs.length k s = bs →
    ∀ j b, bs[j]? = some b → fetchByte (k + j) s = .next b := by
  intro bs
  induction bs with
  | nil => intro k _ j b h; simp at h
  | cons c bs ih =>
    intro k h j b hb
    simp only [List.length_cons, fetchRun] at h
    cases hf : fetchByte k s with
    | next d =>
      simp only [hf, List.cons.injEq] at h
      cases j with
      | zero => simp only [List.getElem?_cons_zero, Option.some.injEq] at hb; rw [Nat.add_zero, hf, h.1, hb]
      | succ j => rw [show k + (j + 1) = k + 1 + j by omega]; exact ih (k + 1) h.2 j b (by simpa using hb)
    | fault _ => simp [hf] at h
    | refused _ => simp [hf] at h

/-- A state before a carrier instruction of `n` bytes, with registers and one data byte. -/
def ready (op ad : Size) (n : Nat) : State := counted n (start op ad regs32 0x100 [])

theorem plain_ready (op ad : Size) (n : Nat) : Plain (ready op ad n) := ⟨rfl, rfl⟩

theorem wit_DecodeOfEncodeIsInstruction :
    (Instr.movRmImm (.mem (.sib .x8 .esp .ebp (.d8 0xFF))) 0xFFFFFFFF).wf .s32 .s32 = true ∧
    (Instr.movRImm .edi 0xFFFF).wf .s16 .s16 = true ∧ Instr.movRImm .edi 0xFFFF ≠ .repe := by decide
theorem wit_EncodeOfDecodeIsBytes : decode .s16 .s32 [0xC7, 0x00, 0xFF, 0xFF, 0x90] =
    .ok (.movRmImm (.mem (.based32 .eax .absent)) 0xFFFF, [0x90]) := by rfl
theorem wit_UndefinedOpcodesAreRefused :
    ((0xA1 : Byte) ∉ carrierBytes ∧ (0xA1 : Byte) ∉ prefixBytes ∧ (0xA1 : Byte) ≠ 0x0F) ∧
    ((0xBF : Byte) ∈ carrierBytes ∧ (0x67 : Byte) ∈ prefixBytes) := by decide
theorem wit_UndefinedDigitIsRefused : midField 0xC8 ≠ 0#3 ∧ midField 0x38 ≠ 0#3 := by decide
theorem wit_EveryModRmAndSibByteIsDefined : 5 ≤ ([0x25, 1, 2, 3, 4] : List Byte).length := by decide
theorem wit_SibByteFollowsExactly :
    decodeRm .s32 0x04 [0x24] = .ok (.mem (.sib .x1 .esp .esp .absent), []) ∧
    decodeRm .s32 0x04 [0x25, 1, 0, 0, 0] = .ok (.mem (.sibAbs .x1 .esp 1), []) ∧
    decodeRm .s32 0xC4 [] = .ok (.reg .esp, []) ∧
    decodeRm .s16 0x04 [0x24] = .ok (.mem (.based16 .si .absent), [0x24]) := by exact ⟨rfl, rfl, rfl, rfl⟩
/-- A ModR/M byte for each row of the tables of 30 R59 and R60: 16-bit forms, 32-bit forms with and without a SIB byte. -/
theorem wit_DisplacementSizes :
    (decodeRm .s16 0x06 [1, 2, 3] = .ok (.mem (.abs16 0x0201), [3]) ∧
     decodeRm .s16 0x07 [1, 2, 3] = .ok (.mem (.based16 .bx .absent), [1, 2, 3]) ∧
     decodeRm .s16 0x46 [1, 2, 3] = .ok (.mem (.based16 .bp (.d8 1)), [2, 3]) ∧
     decodeRm .s16 0x86 [1, 2, 3] = .ok (.mem (.based16 .bp (.d16 0x0201)), [3]) ∧
     decodeRm .s16 0xC6 [1, 2, 3] = .ok (.reg .esi, [1, 2, 3])) ∧
    (decodeRm .s32 0x05 [1, 2, 3, 4] = .ok (.mem (.abs32 0x04030201), []) ∧
     decodeRm .s32 0x06 [1] = .ok (.mem (.based32 .esi .absent), [1]) ∧
     decodeRm .s32 0x45 [1, 2] = .ok (.mem (.based32 .ebp (.d8 1)), [2]) ∧
     decodeRm .s32 0x85 [1, 2, 3, 4, 5] = .ok (.mem (.based32 .ebp (.d32 0x04030201)), [5]) ∧
     decodeRm .s32 0xC5 [1] = .ok (.reg .ebp, [1])) ∧
    decodeRm .s32 0x04 [0x25, 1, 2, 3, 4, 5] = .ok (.mem (.sibAbs .x1 .esp 0x04030201), [5]) ∧
    decodeRm .s32 0x04 [0x24, 1] = .ok (.mem (.sib .x1 .esp .esp .absent), [1]) ∧
    decodeRm .s32 0x44 [0x25, 1, 2] = .ok (.mem (.sib .x1 .esp .ebp (.d8 1)), [2]) ∧
    decodeRm .s32 0x84 [0x24, 1, 2, 3, 4] = .ok (.mem (.sib .x1 .esp .esp (.d32 0x04030201)), []) := by
  exact ⟨⟨rfl, rfl, rfl, rfl, rfl⟩, ⟨rfl, rfl, rfl, rfl, rfl⟩, rfl, rfl, rfl, rfl⟩
theorem wit_DecoderNeedsEveryByte :
    (Instr.movRmImm (.mem (.sib .x4 .ecx .eax (.d32 0x100))) 0xDEADBEEF).wf .s32 .s32 = true ∧
    10 < (encode .s32 (.movRmImm (.mem (.sib .x4 .ecx .eax (.d32 0x100))) 0xDEADBEEF)).length := by decide
theorem wit_OperandIsThatOfDecodeRM :
    decodeRm .s32 0x4C [0xD5, 0xF0] = .ok (.mem (.sib .x8 .edx .ebp (.d8 0xF0)), []) ∧
    decodeRm .s16 0x42 [0x80] = .ok (.mem (.based16 .bpSi (.d8 0x80)), []) := by exact ⟨rfl, rfl⟩

/-- A carrier form, one that ends at the top offset, and a prefix. -/
theorem wit_StepRunsDecodedInstruction :
    (let s := start .s16 .s16 zeroRegs 0xFFFE [0x90]
     ended s = false ∧ decode s.env.defOpSize s.env.defAddrSize (fetchRun Config.maxUnit 0 s) = .ok (.nop, [0]) ∧
       (fetchRun Config.maxUnit 0 s).length - 1 ≤ 15 ∧
       s.ip.toNat + ((fetchRun Config.maxUnit 0 s).length - 1) ≤ topOffset s.env.defAddrSize) ∧
    (let s := start .s32 .s32 zeroRegs 0xFFFFFFFE [0x66, 0x90]
     ended s = false ∧
       decode s.env.defOpSize s.env.defAddrSize (fetchRun Config.maxUnit 0 s) = .ok (.opsize, [0x90])) :=
  ⟨⟨by decide, by rfl, by decide, by decide⟩, by decide, by rfl⟩

/-- The longest instruction that completes (14 bytes), and one of 15 bytes. -/
def longPrefixes : List Instr := [.cs, .opsize, .adsize]
def longCarrier : Instr := .movRmImm (.mem (.sib .x4 .ecx .eax (.d32 0x100))) 0xDEADBEEF
def longBytes : List Byte := [0x2E, 0x66, 0x67, 0xC7, 0x84, 0x88, 0x00, 0x01, 0x00, 0x00, 0xEF, 0xBE, 0xAD, 0xDE]

theorem wit_PrefixedInstructionIsOneStep :
    (let s := start .s16 .s16 { zeroRegs with eax := 0x1000, ecx := 0x10 } 0x100 longBytes
     let u : State := { s with dec := recordOf longPrefixes 0 }
     ended s = false ∧ (∀ p ∈ longPrefixes, p.isPrefix = true) ∧ (longPrefixes.map prefixGroup).Nodup ∧
       longCarrier.isPrefix = false ∧ longCarrier.wf (opsize u) (adsize u) = true ∧
       instrBytes (opsize u) longPrefixes longCarrier = longBytes ∧ longBytes.length ≤ 15 ∧
       s.ip.toNat + longBytes.length ≤ topOffset s.env.defAddrSize ∧ Fetches longBytes s) :=
  ⟨by decide, by decide, by decide, by decide, by decide, by decide, by decide, by decide,
    fun j b h => by simpa using fetches_of_run longBytes 0 (by decide) j b h⟩

theorem wit_PrefixedInstructionIsOneStep_15 :
    (let s := start .s16 .s16 zeroRegs 0x100 (0xF0 :: longBytes)
     let u : State := { s with dec := recordOf (.lock :: longPrefixes) 0 }
     ((Instr.lock :: longPrefixes).map prefixGroup).Nodup ∧ longCarrier.wf (opsize u) (adsize u) = true ∧
       instrBytes (opsize u) (.lock :: longPrefixes) longCarrier = 0xF0 :: longBytes ∧
       (0xF0 :: longBytes).length = 15 ∧ Fetches (0xF0 :: longBytes) s) :=
  ⟨by decide, by decide, by decide, by decide,
    fun j b h => by simpa using fetches_of_run (0xF0 :: longBytes) 0 (by decide) j b h⟩

theorem wit_OverlongInstructionFaults :
    (let bs := 0xF3 :: 0xF0 :: longBytes
     let ps := Instr.rep :: .lock :: longPrefixes
     let s := start .s16 .s16 zeroRegs 0x100 bs
     let u : State := { s with dec := recordOf ps 0 }
     ended s = false ∧ (∀ p ∈ ps, p.isPrefix = true) ∧ (ps.map prefixGroup).Nodup ∧
       longCarrier.wf (opsize u) (adsize u) = true ∧ instrBytes (opsize u) ps longCarrier = bs ∧ 15 < bs.length ∧
       Fetches bs s) :=
  ⟨by decide, by decide, by decide, by decide, by decide, by decide,
    fun j b h => by simpa using fetches_of_run (0xF3 :: 0xF0 :: longBytes) 0 (by decide) j b h⟩

theorem wit_StepStaysAtEnd : ∃ s : State, s.ip = s.env.endIp :=
  ⟨start .s16 .s16 zeroRegs 0xFFFFFFFF [], by decide⟩
/-- No prefix and no byte yet, past the top and not admitted at the top; B0 01 at FFFFh, whose second byte is past the top;
B8 at 1FEh, whose third byte is not admitted (95 section 4.1); and a prefix with the opcode byte wanting. -/
theorem wit_FetchStops :
    (let s := start .s16 .s16 zeroRegs 0x10000 []
     ended s = false ∧ decode .s16 .s16 [] = .error .truncated ∧ Fetches (withPrefixes [] []) s ∧
       topOffset s.env.defAddrSize < s.ip.toNat + (withPrefixes [] []).length) ∧
    (let s := denying [⟨.cs, .fetch, 1, 0, 0xFFFF⟩] (start .s16 .s16 zeroRegs 0xFFFF [])
     ended s = false ∧ s.ip.toNat + (withPrefixes [] []).length ≤ topOffset s.env.defAddrSize ∧
       segAdmit .cs (s.ip + BitVec.ofNat 32 0) 1 .fetch s = false) ∧
    (let s := start .s16 .s16 zeroRegs 0xFFFF [0xB0, 0x01]
     ended s = false ∧ decode .s16 .s16 [0xB0] = .error .truncated ∧ Fetches (withPrefixes [] [0xB0]) s ∧
       topOffset s.env.defAddrSize < s.ip.toNat + (withPrefixes [] [0xB0]).length) ∧
    (let s := denying [⟨.cs, .fetch, 1, 0x200, 0xFFFFFFFF⟩]
       (start .s32 .s32 zeroRegs 0x1FE [0xB8, 0x78, 0x56, 0x34, 0x12])
     ended s = false ∧ decode .s32 .s32 [0xB8, 0x78] = .error .truncated ∧
       Fetches (withPrefixes [] [0xB8, 0x78]) s ∧
       s.ip.toNat + (withPrefixes [] [0xB8, 0x78]).length ≤ topOffset s.env.defAddrSize ∧
       segAdmit .cs (s.ip + BitVec.ofNat 32 2) 1 .fetch s = false) ∧
    (let s := start .s16 .s16 zeroRegs 0xFFFF [0x66]
     Instr.opsize.isPrefix = true ∧ Fetches (withPrefixes [.opsize] []) s ∧
       topOffset s.env.defAddrSize < s.ip.toNat + (withPrefixes [.opsize] []).length) :=
  ⟨⟨by decide, by rfl, fun j b h => by simp [withPrefixes] at h, by decide⟩,
    ⟨by decide, by decide, by decide⟩,
    ⟨by decide, by rfl, fun j b h => by simpa using fetches_of_run [0xB0] 0 (by decide) j b h, by decide⟩,
    ⟨by decide, by rfl, fun j b h => by simpa using fetches_of_run [0xB8, 0x78] 0 (by decide) j b h, by decide,
      by decide⟩,
    ⟨by decide, fun j b h => by simpa using fetches_of_run [0x66] 0 (by decide) j b h, by decide⟩⟩

/-- 95 section 4.1's 90 at FFFFh, and 66 90 at FFFEh. -/
theorem wit_InstructionPastTopIsRefused :
    (let s := start .s16 .s16 zeroRegs 0xFFFF [0x90]
     ended s = false ∧ Instr.nop.isPrefix = false ∧ Instr.nop.wf .s16 .s16 = true ∧
       topOffset s.env.defAddrSize < s.ip.toNat + (instrBytes .s16 [] .nop).length ∧
       Fetches (instrBytes .s16 [] .nop) s) ∧
    (let s := start .s16 .s16 zeroRegs 0xFFFE [0x66, 0x90]
     ended s = false ∧ Instr.opsize.isPrefix = true ∧ Instr.nop.wf .s32 .s16 = true ∧
       (instrBytes .s32 [.opsize] .nop).length ≤ 15 ∧
       topOffset s.env.defAddrSize < s.ip.toNat + (instrBytes .s32 [.opsize] .nop).length ∧
       Fetches (instrBytes .s32 [.opsize] .nop) s) :=
  ⟨⟨by decide, by decide, by decide, by decide,
      fun j b h => by simpa using fetches_of_run [0x90] 0 (by decide) j b h⟩,
    ⟨by decide, by decide, by decide, by decide, by decide,
      fun j b h => by simpa using fetches_of_run [0x66, 0x90] 0 (by decide) j b h⟩⟩

/-- An undefined byte at the top after a prefix; 0Fh with its second byte; C6 and C7 with another digit. -/
theorem wit_UnknownOpcodeStepIsRefused :
    (UndefinedOpcode 0xA1 [0xA1] ∧
      Fetches (withPrefixes [.opsize] [0xA1]) (start .s16 .s16 zeroRegs 0xFFFE [0x66, 0xA1])) ∧
    (UndefinedOpcode 0x0F [0x0F, 0x01] ∧
      Fetches (withPrefixes [] [0x0F, 0x01]) (start .s16 .s16 zeroRegs 0x100 [0x0F, 0x01])) ∧
    (UndefinedOpcode 0xC7 [0xC7, 0xC8] ∧ UndefinedOpcode 0xC6 [0xC6, 0x48] ∧
      Fetches (withPrefixes [.es] [0xC7, 0xC8]) (start .s16 .s16 zeroRegs 0x100 [0x26, 0xC7, 0xC8])) :=
  ⟨⟨.inl ⟨rfl, by decide, by decide, by decide⟩,
      fun j b h => by simpa using fetches_of_run [0x66, 0xA1] 0 (by decide) j b h⟩,
    ⟨.inr (.inl ⟨rfl, _, rfl⟩), fun j b h => by simpa using fetches_of_run [0x0F, 0x01] 0 (by decide) j b h⟩,
    .inr (.inr ⟨.inr rfl, 0xC8, by decide, rfl⟩), .inr (.inr ⟨.inl rfl, 0x48, by decide, rfl⟩),
    fun j b h => by simpa using fetches_of_run [0x26, 0xC7, 0xC8] 0 (by decide) j b h⟩

/-- 95 section 2's F0 2E 36: the second segment override comes third. -/
theorem wit_SecondPrefixStepIsRefused :
    (let s := start .s32 .s32 zeroRegs 0x100 [0xF0, 0x2E, 0x36]
     ended s = false ∧ (∀ p ∈ [Instr.lock, .cs], p.isPrefix = true) ∧ ([Instr.lock, .cs].map prefixGroup).Nodup ∧
       Instr.ss.isPrefix = true ∧ prefixGroup .ss ∈ [Instr.lock, .cs].map prefixGroup ∧
       Fetches (withPrefixes [.lock, .cs] (encode .s16 .ss)) s) :=
  ⟨by decide, by decide, by decide, by decide, by decide,
    fun j b h => by simpa using fetches_of_run [0xF0, 0x2E, 0x36] 0 (by decide) j b h⟩

/-- A store that runs: the state it starts from meets the invariant, and it answers a next state. -/
def storing : State := start .s16 .s16 { zeroRegs with ebp := 0x1000 } 0x100 [0xC6, 0x46, 0xFC, 0x2A]

theorem storing_next : ∃ t, step storing = .next t := next_of_nextHas (f := fun _ => true) (by decide)

theorem wit_StepKeepsMachineInv : MachineInv storing ∧ ∃ t, step storing = .next t :=
  ⟨⟨by decide, by decide, by decide, by decide⟩, storing_next⟩
theorem wit_StepKeepsParameters : ∃ t, step storing = .next t := storing_next
/-- Two steps, the first byte fetched before the run. -/
theorem wit_RunKeepsFetchedCode :
    ∃ t, Sys2Proof.Safety.RunsTo 2 { start .s16 .s16 zeroRegs 0x100 [0x90, 0xEB, 0x05] with fetched := [7] } t ∧
      7 ∈ ({ start .s16 .s16 zeroRegs 0x100 [0x90, 0xEB, 0x05] with fetched := [7] } : State).fetched := by
  obtain ⟨t, h⟩ := next_of_nextHas (f := fun _ => true)
    (r := Host.Core.run core 2 { start .s16 .s16 zeroRegs 0x100 [0x90, 0xEB, 0x05] with fetched := [7] }) (by decide)
  exact ⟨t, h, by decide⟩
theorem wit_StepKeepsItsOwnBytes :
    ∃ t, exec .nop (ready .s16 .s16 15) = .next t ∧ (ready .s16 .s16 15).dec.n ≤ 15 :=
  ⟨_, rfl, by decide⟩
theorem wit_DecodeRecordDoesNotSurvive : ended storing = false ∧ ∃ t, step storing = .next t :=
  ⟨by decide, storing_next⟩
theorem wit_FetchHistoryEntersNoValue :
    ∃ t u, step storing = .next t ∧ step { storing with fetched := [3, 0x500] } = .next u := by
  obtain ⟨t, h⟩ := storing_next
  obtain ⟨u, h'⟩ := next_of_nextHas (f := fun _ => true) (r := step { storing with fetched := [3, 0x500] }) (by decide)
  exact ⟨t, u, h, h'⟩
theorem wit_StopRecordsInstructionPointer :
    step (start .s32 .s32 zeroRegs 0x100 [0x8D, 0xC0]) = .fault (.invalidOpcode 0x100) ∧
    step (start .s32 .s32 zeroRegs 0x100 [0xF3, 0x90]) = .refused (.repOnNonString 0x100) := by exact ⟨rfl, rfl⟩
theorem wit_MemoryIsLittleEndian : Width.w32.bytes ≤ 4 := by decide
theorem wit_StoredValueReadsBack :
    ∃ t, memWrite .ds .s32 0xFFFFFFFC Width.w32.bytes 0xDEADBEEF (ready .s32 .s32 2) = .next t ∧
      segAdmit .ds 0xFFFFFFFC Width.w32.bytes .read t = true :=
  ⟨_, (memWrite_next_iff _ _ _ _ _ _ _).mpr ⟨by decide, by decide, by decide, rfl⟩, by decide⟩
theorem wit_OperandAddressUsesSegment :
    ({ ready .s16 .s16 2 with dec := { DecodeRecord.empty with segovr := some .es } } : State).dec.segovr = some .es ∧
    (ready .s16 .s16 2).dec.segovr = none := by decide

/-- For the statements that a prefix is recorded: each group free, 14 bytes counted. -/
theorem wit_PrefixesAreRecorded :
    (ready .s16 .s16 14).dec.rep = none ∧ (ready .s16 .s16 14).dec.lock = false ∧
    (ready .s16 .s16 14).dec.segovr = none ∧ (ready .s16 .s16 14).dec.opovr = false ∧
    (ready .s16 .s16 14).dec.adovr = false ∧ (ready .s16 .s16 14).dec.n < 15 := by decide
theorem wit_SecondPrefixOfGroupIsRefused :
    Instr.fs.isPrefix = true ∧ prefixGroup .fs = prefixGroup .gs ∧ ∃ t, exec .fs (ready .s16 .s16 14) = .next t :=
  ⟨by decide, by decide, _, rfl⟩
theorem wit_PrefixOrderDoesNotMatter :
    Instr.rep.isPrefix = true ∧ Instr.opsize.isPrefix = true ∧ prefixGroup .rep ≠ prefixGroup .opsize ∧
    (∃ t, exec .rep (ready .s16 .s16 1) = .next t) ∧ (∃ u, exec .opsize (ready .s16 .s16 1) = .next u) ∧
    (ready .s16 .s16 1).dec.n + 13 < 15 :=
  ⟨by decide, by decide, by decide, ⟨_, rfl⟩, ⟨_, rfl⟩, by decide⟩
theorem wit_RepeatOrLockOnCarrierIsRefused :
    Instr.nop.isPrefix = false ∧
    ({ ready .s16 .s16 2 with dec := { DecodeRecord.empty with rep := some .f2 } } : State).dec.rep ≠ none ∧
    ({ ready .s16 .s16 2 with dec := { DecodeRecord.empty with lock := true } } : State).dec.rep = none ∧
    ({ ready .s16 .s16 2 with dec := { DecodeRecord.empty with lock := true } } : State).dec.lock = true := by decide
theorem wit_OverrideWithoutOperandIsIgnored :
    (Instr.lea .eax (.mem (.based16 .bp (.d8 1)))).isPrefix = false ∧
    accessesMemory (.lea .eax (.mem (.based16 .bp (.d8 1)))) = false := by decide

/-- For MovRm8R8Stores, MovR8Rm8Loads and MovRm8ImmStores: a byte operand at the last offset, and a register. -/
theorem wit_byte_operand : Plain (ready .s16 .s16 4) ∧
    RmReadable .w8 (.mem (.abs16 0xFFFF)) (ready .s16 .s16 4) ∧ RmWritable .w8 (.mem (.abs16 0xFFFF)) (ready .s16 .s16 4) ∧
    RmReadable .w8 (.reg .edi) (ready .s16 .s16 4) ∧ RmWritable .w8 (.reg .edi) (ready .s16 .s16 4) :=
  ⟨plain_ready _ _ _, ⟨by unfold InRange; decide, by decide⟩,
    ⟨by unfold InRange; decide, by unfold NoCode; decide, by decide⟩, trivial, trivial⟩
/-- For the 16-bit clauses of MovRmRStores, MovRRmLoads and MovRmImmStores: a word at FFFEh. -/
theorem wit_word_operand : Plain (ready .s16 .s16 4) ∧ opsize (ready .s16 .s16 4) = .s16 ∧
    RmReadable .w16 (.mem (.abs16 0xFFFE)) (ready .s16 .s16 4) ∧
    RmWritable .w16 (.mem (.abs16 0xFFFE)) (ready .s16 .s16 4) :=
  ⟨plain_ready _ _ _, by decide, ⟨by unfold InRange; decide, by decide⟩,
    ⟨by unfold InRange; decide, by unfold NoCode; decide, by decide⟩⟩
/-- For the 32-bit clauses of MovRmRStores, MovRRmLoads and MovRmImmStores: a doubleword at FFFFFFFCh. -/
theorem wit_dword_operand : Plain (ready .s32 .s32 6) ∧ opsize (ready .s32 .s32 6) = .s32 ∧
    RmReadable .w32 (.mem (.abs32 0xFFFFFFFC)) (ready .s32 .s32 6) ∧
    RmWritable .w32 (.mem (.abs32 0xFFFFFFFC)) (ready .s32 .s32 6) :=
  ⟨plain_ready _ _ _, by decide, ⟨by unfold InRange; decide, by decide⟩,
    ⟨by unfold InRange; decide, by unfold NoCode; decide, by decide⟩⟩
/-- For NopOnlyAdvances, LeaLoadsOffset, MovR8ImmLoads, MovRImmLoads, JmpGoesToTarget and LoopCountsAndJumps, which ask
for no repeat or LOCK prefix (`plain_ready`) and for the sizes: both operand sizes, both address sizes, a count of 1 and
another. -/
theorem wit_sizes :
    (opsize (ready .s16 .s32 2) = .s16 ∧ adsize (ready .s16 .s32 2) = .s32) ∧
    (opsize (ready .s32 .s16 2) = .s32 ∧ adsize (ready .s32 .s16 2) = .s16) ∧
    (r32 .ecx (ready .s16 .s32 2) ≠ 1) ∧ r16 .ecx (start .s16 .s16 { zeroRegs with ecx := 0x10001 } 0 []) = 1 := by decide
/-- The encodings that C6 and C7 take their operands from. -/
theorem wit_store_immediates : midField 0x46 = 0#3 ∧ midField 0x4E ≠ 0#3 ∧
    decodeRm .s16 0x46 [0xFC, 0x2A] = .ok (.mem (.based16 .bp (.d8 0xFC)), [0x2A]) ∧
    decodeRm .s16 0x46 [0xFC, 0x2A, 0x00] = .ok (.mem (.based16 .bp (.d8 0xFC)), [0x2A, 0x00]) ∧
    decodeRm .s32 0xC3 [1, 2, 3, 4] = .ok (.reg .ebx, [1, 2, 3, 4]) :=
  ⟨by decide, by decide, by rfl, by rfl, by rfl⟩

/-- A word operand one byte past its last offset; one that is not admitted (also for the exception clauses of
MovR8Rm8Loads and MovRRmLoads). -/
theorem wit_LoadStopsInOrder :
    Plain (ready .s16 .s16 4) ∧ ¬ InRange Width.w16.bytes (.abs16 0xFFFF) (ready .s16 .s16 4) ∧
    (InRange Width.w16.bytes (.abs16 0xFFFE) (denying [⟨.ds, .read, 2, 0xFFFE, 0xFFFE⟩] (ready .s16 .s16 4)) ∧
      segAdmit (segment (.abs16 0xFFFE) (ready .s16 .s16 4))
        (offset (.abs16 0xFFFE) (ready .s16 .s16 4)) Width.w16.bytes .read
        (denying [⟨.ds, .read, 2, 0xFFFE, 0xFFFE⟩] (ready .s16 .s16 4)) = false) :=
  ⟨plain_ready _ _ _, by unfold InRange; decide, by unfold InRange; decide, by decide⟩
/-- A store past the top; one whose last byte is the window's first; one that is not admitted (also for the exception
clauses of MovRm8R8Stores, MovRmRStores, MovRm8ImmStores and MovRmImmStores). -/
theorem wit_StoreStopsInOrder :
    Plain (ready .s16 .s16 4) ∧ ¬ InRange Width.w16.bytes (.abs16 0xFFFF) (ready .s16 .s16 4) ∧
    (InRange Width.w16.bytes (.abs16 0x00FF) (flat (ready .s16 .s16 4)) ∧
      ¬ NoCode Width.w16.bytes (.abs16 0x00FF) (flat (ready .s16 .s16 4))) ∧
    (InRange Width.w16.bytes (.abs16 0xFFFE) (denying [⟨.ds, .write, 2, 0xFFFE, 0xFFFE⟩] (ready .s16 .s16 4)) ∧
      NoCode Width.w16.bytes (.abs16 0xFFFE) (denying [⟨.ds, .write, 2, 0xFFFE, 0xFFFE⟩] (ready .s16 .s16 4)) ∧
      segAdmit (segment (.abs16 0xFFFE) (ready .s16 .s16 4))
        (offset (.abs16 0xFFFE) (ready .s16 .s16 4)) Width.w16.bytes .write
        (denying [⟨.ds, .write, 2, 0xFFFE, 0xFFFE⟩] (ready .s16 .s16 4)) = false) :=
  ⟨plain_ready _ _ _, by unfold InRange; decide, ⟨by unfold InRange; decide, by unfold NoCode; decide⟩,
    by unfold InRange; decide, by unfold NoCode; decide, by decide⟩
/-- The window's first and last byte, the byte after it, and a byte fetched before. -/
theorem wit_CodeIsWindowOrFetched :
    (let s : State := { flat (ready .s16 .s16 4) with fetched := [5] }
     isCode 0x100 s = true ∧ isCode 0x10E s = true ∧ isCode 0x10F s = false ∧ isCode 0xFF s = false ∧
       isCode 5 s = true) := by decide
theorem wit_InstructionsThatDoNotStoreKeepMemory :
    storesMemory (.movR8Imm .esp 0x7F) = false ∧ ∃ t, exec (.movR8Imm .esp 0x7F) (ready .s16 .s16 2) = .next t :=
  ⟨by decide, _, rfl⟩
theorem wit_StoresChangeOnlyTheOperand :
    ∃ t, exec (.movRm8Imm (.mem (.abs16 0xFFFF)) 0x2A) (ready .s16 .s16 4) = .next t :=
  next_of_nextHas (f := fun _ => true) (by decide)

end Sys2Proof.Tests
end

section
/-! The r/m operand's bytes: when a SIB byte follows the ModR/M byte (spec 30_encoding.md R56), and which bytes are the
displacement (R59, R60). -/

namespace Sys2Proof

open Sys2Proof.Claims

/-! ## The fields of a byte as numbers -/

@[simp] theorem toNat_topField (b : Byte) : (topField b).toNat = b.toNat / 64 := by
  simp only [topField, BitVec.extractLsb'_toNat, Nat.shiftRight_eq_div_pow]
  omega

@[simp] theorem toNat_lowField (b : Byte) : (lowField b).toNat = b.toNat % 8 := by
  simp [lowField, BitVec.extractLsb'_toNat]

theorem sibFollows_iff (ad : Size) (m : Byte) :
    sibFollows ad m = true ↔ ad = .s32 ∧ m.toNat / 64 ≠ 3 ∧ m.toNat % 8 = 4 := by
  simp [sibFollows, ← BitVec.toNat_inj, and_assoc]

/-! ## When a SIB byte follows -/

/-- Settles O7: each row `decodeRm_ok` lists gives a SIB form exactly when the byte announces a SIB byte. -/
theorem sibByteFollowsExactly : Obligations.SibByteFollowsExactly := by
  intro ad m bs rm rest h
  rw [← sibFollows_iff]
  rcases decodeRm_ok h with ⟨h3, rfl, -⟩ | ⟨h3, rfl, f, rfl, hf⟩ | ⟨h3, rfl, h4, sb, q, f, -, rfl, hf⟩ |
    ⟨h3, rfl, h4, f, rfl, hf⟩
  · simp [sibFollows, h3]
  · rcases decodeMem16_ok hf h3 with ⟨-, -, d, rfl, -⟩ | ⟨-, d, rfl, -, -⟩ <;> simp [sibFollows]
  · rcases decodeSib_ok hf h3 with ⟨-, -, d, rfl, -⟩ | ⟨-, d, rfl, -, -⟩ <;> simp [sibFollows, h3, h4]
  · rcases decodeMem32_ok hf h3 with ⟨-, -, d, rfl, -⟩ | ⟨-, d, rfl, -, -⟩ <;> simp [sibFollows, h4]

/-! ## The number at the front of a list of bytes -/

theorem leNumber_length_append (front rest : List Byte) :
    leNumber front.length (front ++ rest) = leNumber front.length front := by
  induction front with
  | nil => rfl
  | cons b front ih => simp [leNumber, ih]

@[simp] theorem leNumber_bytes16 (w : Word16) : leNumber 2 (bytes16 w) = w.toNat := by
  simp only [bytes16, leNumber, BitVec.extractLsb'_toNat, Nat.shiftRight_eq_div_pow]
  omega

@[simp] theorem leNumber_bytes32 (w : Word32) : leNumber 4 (bytes32 w) = w.toNat := by
  simp only [bytes32, leNumber, BitVec.extractLsb'_toNat, Nat.shiftRight_eq_div_pow]
  omega

/-! ## The displacement's bytes -/

/-- The first `size` bytes of `bs` are the number `value`, and `rest` is what follows them. -/
def StandsAtFront (size value : Nat) (bs rest : List Byte) : Prop :=
  size ≤ bs.length ∧ value = leNumber size bs ∧ rest = bs.drop size

theorem standsAtFront_append (front rest : List Byte) :
    StandsAtFront front.length (leNumber front.length front) (front ++ rest) rest :=
  ⟨by simp, (leNumber_length_append front rest).symm, by simp⟩

theorem standsAtFront_bytes16 (w : Word16) (rest : List Byte) :
    StandsAtFront 2 w.toNat (bytes16 w ++ rest) rest := by
  simpa using standsAtFront_append (bytes16 w) rest

theorem standsAtFront_bytes32 (w : Word32) (rest : List Byte) :
    StandsAtFront 4 w.toNat (bytes32 w ++ rest) rest := by
  simpa using standsAtFront_append (bytes32 w) rest

/-- R59 away from the row of disp16 alone: mod gives the displacement's size. -/
theorem dispBytes_s16_mode (d : Disp16) {r : BitVec 3} (base : Nat) (hr : ¬ (d.mode = 0#2 ∧ r = 6#3)) :
    dispBytes .s16 d.mode.toNat r.toNat base = d.encode.length := by
  cases d <;> simp_all [dispBytes, Disp16.mode, Disp16.encode, ← BitVec.toNat_inj]

/-- R60 away from the two rows of disp32 alone: mod gives the displacement's size. -/
theorem dispBytes_s32_mode (d : Disp32) {r : BitVec 3} {base : Nat} (hr : ¬ (d.mode = 0#2 ∧ r = 5#3))
    (hb : ¬ (d.mode = 0#2 ∧ r = 4#3 ∧ base = 5)) :
    dispBytes .s32 d.mode.toNat r.toNat base = d.encode.length := by
  cases d <;> simp_all [dispBytes, Disp32.mode, Disp32.encode, ← BitVec.toNat_inj]

theorem dispField_based16 (b : Base16) (d : Disp16) :
    dispField (.mem (.based16 b d)) = leNumber d.encode.length d.encode := by
  cases d <;> simp [dispField, Disp16.encode, leNumber]

theorem dispField_based32 (b : Reg) (d : Disp32) :
    dispField (.mem (.based32 b d)) = leNumber d.encode.length d.encode := by
  cases d <;> simp [dispField, Disp32.encode, leNumber]

theorem dispField_sib (ss : Scale) (index b : Reg) (d : Disp32) :
    dispField (.mem (.sib ss index b d)) = leNumber d.encode.length d.encode := by
  cases d <;> simp [dispField, Disp32.encode, leNumber]

theorem decodeMem16_disp {md : BitVec 2} {r : BitVec 3} {bs rest : List Byte} {f : MemForm} (base : Nat)
    (h : decodeMem16 md r bs = .ok (f, rest)) (h3 : md ≠ 3#2) :
    StandsAtFront (dispBytes .s16 md.toNat r.toNat base) (dispField (.mem f)) bs rest := by
  rcases decodeMem16_ok h h3 with ⟨rfl, rfl, d, rfl, rfl⟩ | ⟨hr, d, rfl, rfl, rfl⟩
  · exact standsAtFront_bytes16 d rest
  · rw [dispBytes_s16_mode d base hr, dispField_based16]
    exact standsAtFront_append d.encode rest

theorem decodeMem32_disp {md : BitVec 2} {r : BitVec 3} {bs rest : List Byte} {f : MemForm} (base : Nat)
    (h : decodeMem32 md r bs = .ok (f, rest)) (h3 : md ≠ 3#2) (h4 : r ≠ 4#3) :
    StandsAtFront (dispBytes .s32 md.toNat r.toNat base) (dispField (.mem f)) bs rest := by
  rcases decodeMem32_ok h h3 with ⟨rfl, rfl, d, rfl, rfl⟩ | ⟨hr, d, rfl, rfl, rfl⟩
  · exact standsAtFront_bytes32 d rest
  · rw [dispBytes_s32_mode d hr (fun hb => h4 hb.2.1), dispField_based32]
    exact standsAtFront_append d.encode rest

theorem decodeSib_disp {md : BitVec 2} {sb : Byte} {bs rest : List Byte} {f : MemForm}
    (h : decodeSib md sb bs = .ok (f, rest)) (h3 : md ≠ 3#2) :
    StandsAtFront (dispBytes .s32 md.toNat (4#3).toNat (lowField sb).toNat) (dispField (.mem f)) bs rest := by
  rcases decodeSib_ok h h3 with ⟨rfl, h5, d, rfl, rfl⟩ | ⟨hr, d, rfl, rfl, rfl⟩
  · rw [h5]
    exact standsAtFront_bytes32 d rest
  · rw [dispBytes_s32_mode d (by simp) (fun ⟨hm, _, h5⟩ => hr ⟨hm, BitVec.eq_of_toNat_eq h5⟩), dispField_sib]
    exact standsAtFront_append d.encode rest

/-- The displacement stands at the front of what follows the SIB byte, or the ModR/M byte where there is none; and a
SIB byte that is announced is there. -/
theorem decodeRm_disp {ad : Size} {m : Byte} {bs rest : List Byte} {rm : Rm}
    (h : decodeRm ad m bs = .ok (rm, rest)) :
    (sibFollows ad m = true → bs ≠ []) ∧
    StandsAtFront (dispBytes ad (topField m).toNat (lowField m).toNat (lowField (bs.headD 0)).toNat) (dispField rm)
      (bs.drop (if sibFollows ad m then 1 else 0)) rest := by
  rcases decodeRm_ok h with ⟨h3, rfl, rfl⟩ | ⟨h3, rfl, f, rfl, hf⟩ | ⟨h3, rfl, h4, sb, q, f, rfl, rfl, hf⟩ |
    ⟨h3, rfl, h4, f, rfl, hf⟩
  · cases ad <;> simp [sibFollows, h3, dispBytes, StandsAtFront, dispField, leNumber]
  · simpa [sibFollows] using decodeMem16_disp _ hf h3
  · simpa [sibFollows, h3, h4] using decodeSib_disp hf h3
  · simpa [sibFollows, h4] using decodeMem32_disp _ hf h3 h4

/-- Settles O8: `decodeRm_disp`, with the fields read as numbers and the SIB byte's own place added to the length. -/
theorem displacementSizes : Obligations.DisplacementSizes := by
  intro ad m bs rm rest h start size
  obtain ⟨hsib, hlen, hvalue, hrest⟩ := decodeRm_disp h
  simp only [toNat_topField, toNat_lowField, List.length_drop, List.drop_drop] at hlen hvalue hrest
  have hstart : start ≤ bs.length := by
    unfold start
    split
    case isTrue hs => exact List.length_pos_iff.mpr (hsib hs)
    case isFalse => exact Nat.zero_le _
  exact ⟨(Nat.le_sub_iff_add_le' hstart).mp hlen, hvalue, hrest⟩

end Sys2Proof
end

section
/-! The six segment overrides (spec 40_prefixes.md R85 to R90) and their effect on a memory operand (R93). -/

namespace Sys2Proof.Machine

open Sys2Proof.Claims

/-- A recorded override is the segment of every memory form, whatever its default (41 R119). -/
theorem segment_of_segovr {s : State} {g : Seg} (h : s.dec.segovr = some g) (m : MemForm) : segment m s = g := by
  simp [segment, h]

/-- A prefix of the group of segment overrides is recorded where no override is, and the length allows another byte. -/
theorem exec_segment_override {p : Instr} (hp : p.isPrefix = true) (hg : prefixGroup p = some 2) {s : State}
    (hfree : s.dec.segovr = none) (hn : s.dec.n < Config.maxLen) :
    exec p s = .next { s with dec := recorded s.dec p } := by
  refine exec_prefix hp s (fun g h => ?_) hn
  obtain rfl : 2 = g := Option.some.inj (hg.symm.trans h)
  simp [groupFree, hfree]

/-- Settles O35: each row is a prefix of the overrides' group that records the row's segment. -/
theorem segmentOverridesAreRecorded : Obligations.SegmentOverridesAreRecorded := by
  rintro ⟨b, p, g⟩ hrow
  have hfacts : (∀ op ad rest, decode op ad (b :: rest) = .ok (p, rest)) ∧ p.isPrefix = true ∧ prefixGroup p = some 2 ∧
      ∀ d, recorded d p = { d with segovr := some g } := by
    simp only [List.mem_cons, Prod.mk.injEq, List.not_mem_nil, or_false] at hrow
    rcases hrow with ⟨rfl, rfl, rfl⟩ | ⟨rfl, rfl, rfl⟩ | ⟨rfl, rfl, rfl⟩ | ⟨rfl, rfl, rfl⟩ | ⟨rfl, rfl, rfl⟩ |
      ⟨rfl, rfl, rfl⟩ <;> exact ⟨fun _ _ _ => rfl, rfl, rfl, fun _ => rfl⟩
  obtain ⟨hdecode, hprefix, hgroup, hrecorded⟩ := hfacts
  refine ⟨hdecode, fun s hfree hn => ⟨?_, segment_of_segovr rfl⟩⟩
  rw [exec_segment_override hprefix hgroup hfree hn, hrecorded]

end Sys2Proof.Machine
end

section
/-! What the index number 100 adds to an offset (spec 41_address_forms.md R114), and the default segment of the 16-bit
forms (R107). -/

namespace Sys2Proof.Machine

/-- Index number 100 adds nothing: the scale has nothing to multiply. -/
@[simp] theorem scaledIndex_esp (ss : Scale) (s : State) : scaledIndex ss .esp s = 0 := if_pos rfl

/-- Settles O30: by `scaledIndex_esp` the scaled index drops out of both sums. -/
theorem scaleWithoutIndexIsIgnored : Obligations.ScaleWithoutIndexIsIgnored := by
  intro ss base d d32 s
  constructor
  · calc offset (.sib ss .esp base d) s = r32 base s + scaledIndex ss .esp s + disp32 d := rfl
      _ = r32 base s + disp32 d := by simp
  · calc offset (.sibAbs ss .esp d32) s = scaledIndex ss .esp s + d32 := rfl
      _ = d32 := by simp

/-- The default segment of a register sum is SS exactly where BP is one of its registers. -/
theorem baseSeg16_eq_ss_iff (b : Base16) : baseSeg16 b = .ss ↔ b = .bpSi ∨ b = .bpDi ∨ b = .bp := by
  cases b <;> decide

/-- The default segment of a register sum is DS exactly where BP is none of its registers. -/
theorem baseSeg16_eq_ds_iff (b : Base16) :
    baseSeg16 b = .ds ↔ b = .bxSi ∨ b = .bxDi ∨ b = .si ∨ b = .di ∨ b = .bx := by
  cases b <;> decide

/-- Settles O31: a based form's default segment is that of its register sum, whatever the displacement. -/
theorem defaultSegmentOf16BitForms : Obligations.DefaultSegmentOf16BitForms :=
  fun b _ _ => ⟨baseSeg16_eq_ss_iff b, baseSeg16_eq_ds_iff b, rfl⟩

end Sys2Proof.Machine
end

section
/-! What the carrier opcodes decode to: the opcode's row of the map, then the ModR/M byte and the immediate (spec
42_carrier_instructions.md R131 to R142, 30_encoding.md R62 to R65). -/

namespace Sys2Proof

theorem Decoded.map_map {α β γ : Type} (f : α → β) (g : β → γ) (x : Decoded α) :
    Decoded.map g (Decoded.map f x) = Decoded.map (g ∘ f) x := by
  cases x <;> rfl

/-- An opcode byte that the map lists begins a unit of its kind. -/
theorem decode_of_lookup {b : Byte} {k : OpKind} (h : lookupOp b = some k) (op ad : Size) (bs : List Byte) :
    decode op ad (b :: bs) = decodeKind op ad b k bs := by
  simp [decode, h]

@[simp] theorem takeModRm_cons (ad : Size) (m : Byte) (bs : List Byte) :
    takeModRm ad (m :: bs) = (decodeRm ad m bs).map fun rm => (Reg.ofNum (midField m), rm) := rfl

theorem takeDigit0_of_digit {m : Byte} (h : midField m = 0#3) (b : Byte) (ad : Size) (bs : List Byte) :
    takeDigit0 b ad (m :: bs) = decodeRm ad m bs := by
  simp [takeDigit0, h]

theorem takeDigit0_of_other {m : Byte} (h : midField m ≠ 0#3) (b : Byte) (ad : Size) (bs : List Byte) :
    takeDigit0 b ad (m :: bs) = .error (.unknownOpcode b) := by
  simp [takeDigit0, h]

/-! ## Opcodes with a register number in bits 2:0 (42 R137, R138) -/

theorem lookupOp_B0_add (r : Reg) : lookupOp (BitVec.ofNat 8 (0xB0 + r.num.toNat)) = some .movR8Imm := by
  cases r <;> rfl

theorem lookupOp_B8_add (r : Reg) : lookupOp (BitVec.ofNat 8 (0xB8 + r.num.toNat)) = some .movRImm := by
  cases r <;> rfl

@[simp] theorem lowField_B0_add (r : Reg) : lowField (BitVec.ofNat 8 (0xB0 + r.num.toNat)) = r.num := by
  cases r <;> rfl

@[simp] theorem lowField_B8_add (r : Reg) : lowField (BitVec.ofNat 8 (0xB8 + r.num.toNat)) = r.num := by
  cases r <;> rfl

theorem decode_movR8Imm (op ad : Size) (reg : Reg) (imm : Byte) (rest : List Byte) :
    decode op ad (BitVec.ofNat 8 (0xB0 + reg.num.toNat) :: imm :: rest) = .ok (.movR8Imm reg imm, rest) := by
  simp [decode_of_lookup (lookupOp_B0_add reg), decodeKind]

theorem decode_movRImm {op : Size} {bs rest : List Byte} {imm : Word32} (h : takeImm op bs = .ok (imm, rest))
    (ad : Size) (reg : Reg) :
    decode op ad (BitVec.ofNat 8 (0xB8 + reg.num.toNat) :: bs) = .ok (.movRImm reg imm, rest) := by
  simp [decode_of_lookup (lookupOp_B8_add reg), decodeKind, h]

/-! ## Opcodes with a ModR/M byte (42 R132 to R136, R139, R140) -/

section
variable {op ad : Size} {b m : Byte} {bs : List Byte} {k : OpKind}

/-- An opcode whose unit is its ModR/M byte and the r/m operand: the reg field and the operand are its two operands. -/
theorem decode_of_modRm {f : Reg × Rm → Instr} (hop : lookupOp b = some k)
    (hkind : decodeKind op ad b k (m :: bs) = (takeModRm ad (m :: bs)).map f) :
    decode op ad (b :: m :: bs) = (decodeRm ad m bs).map fun rm => f (Reg.ofNum (midField m), rm) := by
  rw [decode_of_lookup hop, hkind, takeModRm_cons, Decoded.map_map]
  rfl

/-- An opcode under which the reg field must be the digit 0, with another digit there. -/
theorem decode_of_other_digit {g : Rm → List Byte → Decoded Instr} (hop : lookupOp b = some k)
    (hkind : decodeKind op ad b k (m :: bs) = (takeDigit0 b ad (m :: bs)).bind g) (h : midField m ≠ 0#3) :
    decode op ad (b :: m :: bs) = .error (.unknownOpcode b) := by
  rw [decode_of_lookup hop, hkind, takeDigit0_of_other h, Decoded.bind_error]

/-- The same with the digit 0: `g` reads on after the r/m operand. -/
theorem decode_of_digit0 {g : Rm → List Byte → Decoded Instr} {rm : Rm} {q : List Byte} (hop : lookupOp b = some k)
    (hkind : decodeKind op ad b k (m :: bs) = (takeDigit0 b ad (m :: bs)).bind g) (h : midField m = 0#3)
    (hrm : decodeRm ad m bs = .ok (rm, q)) : decode op ad (b :: m :: bs) = g rm q := by
  rw [decode_of_lookup hop, hkind, takeDigit0_of_digit h, hrm, Decoded.bind_ok]

end

end Sys2Proof
end

section
/-! What a write of a register view leaves behind, in the words of the claims (spec 10_state.md R13): the view holds the
value, and every other bit of every register is unchanged. -/

namespace Sys2Proof.Machine

open Sys2Proof.Claims

/-- Bits 15:8 or bits 7:0 of a 32-bit register: the 8-bit view of its home. -/
def byteView (high : Bool) (x : Word32) : Byte := if high then x.extractLsb' 8 8 else x.extractLsb' 0 8

theorem r8_eq_byteView (r : Reg) (s : State) : r8 r s = byteView (Reg.isHighByte r) (s.regs.get (Reg.byteHome r)) := rfl

/-- The 8-bit register number of a half of EAX, ECX, EDX or EBX: the upper bytes are numbered 4 on (R12). -/
def Reg.ofByteView (high : Bool) (home : Reg) : Reg := Reg.ofNum (home.num + if high then 4#3 else 0#3)

theorem Reg.ofByteView_byteHome (r : Reg) : Reg.ofByteView (Reg.isHighByte r) (Reg.byteHome r) = r := by
  cases r <;> rfl

/-- Two 8-bit registers of one home that name the same half of it are one. -/
theorem Reg.eq_of_byteHome {q r : Reg} (hhome : Reg.byteHome q = Reg.byteHome r)
    (hhalf : Reg.isHighByte q = Reg.isHighByte r) : q = r := by
  rw [← Reg.ofByteView_byteHome q, hhome, hhalf, Reg.ofByteView_byteHome]

/-! ## The views after a merge -/

theorem byteView_mergeView_same (high : Bool) (old v : Word32) :
    byteView high (mergeView .w8 high old v) = v.setWidth 8 := by
  apply BitVec.eq_of_getLsbD_eq
  intro i hi
  cases high
  · simp [byteView, getLsbD_mergeView_low, hi]
  · simp [byteView, getLsbD_mergeView_high, hi, show 8 + i < 16 by omega]

theorem byteView_mergeView_other (high : Bool) (old v : Word32) :
    byteView (!high) (mergeView .w8 high old v) = byteView (!high) old := by
  apply BitVec.eq_of_getLsbD_eq
  intro i hi
  cases high
  · simp [byteView, getLsbD_mergeView_low]
  · simp [byteView, getLsbD_mergeView_high, show ¬ 8 ≤ i by omega]

/-- The merge of a byte or of a 16-bit view leaves the upper half. -/
theorem upperHalf_mergeView {w : Width} (hw : w ≠ .w32) (high : Bool) (old v : Word32) :
    (mergeView w high old v).extractLsb' 16 16 = old.extractLsb' 16 16 := by
  apply BitVec.eq_of_getLsbD_eq
  intro i hi
  cases w with
  | w8 =>
    cases high
    · simp [getLsbD_mergeView_low, show ¬ 16 + i < 8 by omega]
    · simp [getLsbD_mergeView_high]
  | w16 => simp [getLsbD_mergeView_w16]
  | w32 => exact absurd rfl hw

theorem lowHalf_mergeView_w16 (high : Bool) (old v : Word32) :
    (mergeView .w16 high old v).extractLsb' 0 16 = v.setWidth 16 := by
  apply BitVec.eq_of_getLsbD_eq
  intro i hi
  simp [getLsbD_mergeView_w16, hi]

/-! ## The views after a write -/

/-- A write of a byte register, seen in the byte registers of its home. -/
theorem r8_writeReg_home {q r : Reg} (h : Reg.byteHome q = Reg.byteHome r) (v : Word32) (s : State) :
    r8 q (writeReg .w8 r v s) =
      byteView (Reg.isHighByte q) (mergeView .w8 (Reg.isHighByte r) (s.regs.get (Reg.byteHome r)) v) := by
  rw [r8_eq_byteView, h]
  exact congrArg _ (writeReg_get_home .w8 r v s)

theorem r8_writeReg_same (r : Reg) (v : Word32) (s : State) : r8 r (writeReg .w8 r v s) = v.setWidth 8 := by
  rw [r8_writeReg_home rfl, byteView_mergeView_same]

/-- Every other byte register keeps its value, the other half of the same home among them. -/
theorem r8_writeReg_other {q r : Reg} (h : q ≠ r) (v : Word32) (s : State) :
    r8 q (writeReg .w8 r v s) = r8 q s := by
  by_cases hhome : Reg.byteHome q = Reg.byteHome r
  · have hhalf : Reg.isHighByte q = !Reg.isHighByte r :=
      Bool.eq_not.mpr fun hhalf => h (Reg.eq_of_byteHome hhome hhalf)
    rw [r8_writeReg_home hhome, hhalf, byteView_mergeView_other, r8_eq_byteView, hhome, hhalf]
  · rw [r8_eq_byteView, writeReg_get_other .w8 r v s hhome, ← r8_eq_byteView]

theorem upperHalf_writeReg {w : Width} (hw : w ≠ .w32) (q r : Reg) (v : Word32) (s : State) :
    (r32 q (writeReg w r v s)).extractLsb' 16 16 = (r32 q s).extractLsb' 16 16 := by
  unfold r32
  by_cases hq : q = viewHome w r
  · rw [hq, writeReg_get_home, upperHalf_mergeView hw]
  · rw [writeReg_get_other w r v s hq]

/-- A write of a view does what `ViewHolds` says. -/
theorem viewHolds_writeReg (w : Width) (r : Reg) (v : Word32) (s : State) : ViewHolds w r v s (writeReg w r v s) := by
  have hother : ∀ q, q ≠ viewHome w r → r32 q (writeReg w r v s) = r32 q s :=
    fun q hq => writeReg_get_other w r v s hq
  cases w with
  | w8 => exact ⟨r8_writeReg_same r v s, fun q hq => r8_writeReg_other hq v s,
      fun q => upperHalf_writeReg (by decide) q r v s, hother⟩
  | w16 =>
    have hview : r16 r (writeReg .w16 r v s) = v.setWidth 16 :=
      (congrArg _ (writeReg_get_home .w16 r v s)).trans (lowHalf_mergeView_w16 _ _ v)
    exact ⟨hview, upperHalf_writeReg (by decide) r r v s, hother⟩
  | w32 => exact ⟨writeReg_get_home .w32 r v s, hother⟩

end Sys2Proof.Machine
end

section
/-! What a store of an operand's bytes leaves behind (spec 20_memory.md R33). -/

namespace Sys2Proof.Machine

open Sys2Proof.Claims

/-- Byte `k` of the `n` stored ones reads as bits 8k+7 : 8k of the value. -/
theorem memByte_writeBytes_stored {n : Nat} (hn : n ≤ Config.addressSpace) (a v : Word32) (m : List Host.Cell)
    {k : Nat} (hk : k < n) :
    memByte (writeBytes n a v m) (a + BitVec.ofNat 32 k).toNat = (v >>> (8 * k)).setWidth 8 := by
  induction n generalizing a v m k with
  | zero => exact absurd hk (Nat.not_lt_zero k)
  | succ n ih =>
    cases k with
    | zero =>
      have hfirst : ∀ j < n, a.toNat ≠ (a + 1 + BitVec.ofNat 32 j).toNat := by
        intro j hj
        have : j + 1 < 2 ^ 32 := Nat.lt_of_lt_of_le (Nat.succ_lt_succ hj) hn
        rw [add_one_add_ofNat, BitVec.toNat_add, BitVec.toNat_ofNat]
        omega
      calc memByte (writeBytes (n + 1) a v m) (a + BitVec.ofNat 32 0).toNat
          = memByte (writeBytes n (a + 1) (v >>> 8) (setMemByte a.toNat (v.extractLsb' 0 8) m)) a.toNat := by
            rw [writeBytes, BitVec.add_zero]
        _ = memByte (setMemByte a.toNat (v.extractLsb' 0 8) m) a.toNat := memByte_writeBytes_other n _ _ _ _ hfirst
        _ = (v >>> (8 * 0)).setWidth 8 := memByte_setMemByte_same _ _ _
    | succ k =>
      rw [writeBytes, ← add_one_add_ofNat, ih (Nat.le_of_succ_le hn) _ _ _ (Nat.lt_of_succ_lt_succ hk),
        ← BitVec.shiftRight_add, Nat.mul_succ, Nat.add_comm]

theorem Width.bytes_le_addressSpace (w : Width) : w.bytes ≤ Config.addressSpace := by
  cases w <;> decide

/-- A store of an operand's bytes does what `BytesStored` says. -/
theorem bytesStored_writeBytes (w : Width) (a v : Word32) (s : State) :
    BytesStored w.bytes a v s { s with mem := writeBytes w.bytes a v s.mem } :=
  ⟨fun _ hk => memByte_writeBytes_stored (Width.bytes_le_addressSpace w) a v s.mem hk,
    fun b hb => memByte_writeBytes_other w.bytes a v s.mem b hb⟩

end Sys2Proof.Machine
end

section
/-! How a carrier instruction that is not refused ends: completed, with its effect and its bytes joined to the fetched
ones, or with the fault of its one access (spec 10_state.md R16, 20_memory.md R32, R39; 42_carrier_instructions.md). -/

namespace Sys2Proof.Machine

open Sys2Proof.Claims

theorem carrier_eq_body {s : State} (h : Plain s) (body : Res State) : carrier s body = body :=
  carrier_of_plain h.1 h.2 body

/-- An instruction that has changed registers and memory alone is ended by `retireTo`. -/
theorem endedAt_retireTo (target : Word32) (s : State) (g : Gprs) (m : List Host.Cell) :
    EndedAt target s (retireTo target { s with regs := g, mem := m }) :=
  ⟨rfl, rfl, rfl, fun a => (mem_noteFetched s.dec.n (linear .cs s.ip s) s.fetched a).trans or_comm⟩

theorem viewHolds_retireTo {w : Width} {r : Reg} {v target : Word32} {s u : State} (h : ViewHolds w r v s u) :
    ViewHolds w r v s (retireTo target u) := by
  cases w <;> exact h

/-! ## Accesses that the environment does not admit -/

theorem checkAdmit_of_denied {seg : Seg} {off : Word32} {n : Nat} {kind : Access} {s : State}
    (h : segAdmit seg off n kind s = false) :
    checkAdmit seg off n kind s = .fault (.accessNotAdmitted s.ip seg off n kind) := by
  simp [checkAdmit, h, raise]

theorem memRead_of_denied {seg : Seg} {ad : Size} {off : Word32} {n : Nat} {s : State}
    (hrange : off.toNat + n ≤ topOffset ad + 1) (hdenied : segAdmit seg off n .read s = false) :
    memRead seg ad off n s = .fault (.accessNotAdmitted s.ip seg off n .read) := by
  rw [memRead, (checkWrap_next_iff ad off n s ()).mpr hrange, checkAdmit_of_denied hdenied]
  rfl

theorem memWrite_of_denied {seg : Seg} {ad : Size} {off : Word32} {n : Nat} {v : Word32} {s : State}
    (hrange : off.toNat + n ≤ topOffset ad + 1)
    (hcode : ∀ k < n, isCode (linear seg off s + BitVec.ofNat 32 k) s = false)
    (hdenied : segAdmit seg off n .write s = false) :
    memWrite seg ad off n v s = .fault (.accessNotAdmitted s.ip seg off n .write) := by
  rw [memWrite, (checkWrap_next_iff ad off n s ()).mpr hrange, (checkNoCode_next_iff _ n s ()).mpr hcode,
    checkAdmit_of_denied hdenied]
  rfl

/-! ## Reading an operand -/

theorem readRm_of_readable {w : Width} {rm : Rm} {s : State} (h : RmReadable w rm s) :
    readRm w rm s = .next (rmValue w rm s) := by
  cases rm with
  | reg r => rfl
  | mem m => exact (memRead_next_iff _ _ _ _ _ _).mpr ⟨h.1, h.2, rfl⟩

theorem readRm_of_denied {w : Width} {m : MemForm} {s : State} (h : LoadNotAdmitted w m s) :
    readRm w (.mem m) s = .fault (notAdmitted m w.bytes .read s) :=
  have ⟨_, hrange, hdenied⟩ := h
  memRead_of_denied hrange hdenied

/-! ## Instructions that write a register view -/

/-- What the loads, LEA and the MOVs of an immediate to a register share: the value goes into the view, and the
instruction ends. -/
def loadValue (w : Width) (reg : Reg) (value : Res Word32) (s : State) : Res State :=
  carrier s (andThen value fun v => .next (retire (writeReg w reg v s)))

theorem loadValue_completes {w : Width} {reg : Reg} {value : Res Word32} {v : Word32} {s : State} (hp : Plain s)
    (hv : value = .next v) :
    ∃ t, loadValue w reg value s = .next t ∧ ViewHolds w reg v s t ∧ SameMemory s t ∧
      EndedAt (s.ip + BitVec.ofNat 32 s.dec.n) s t := by
  subst hv
  exact ⟨retire (writeReg w reg v s), carrier_eq_body hp _, viewHolds_retireTo (viewHolds_writeReg w reg v s),
    fun _ => rfl, endedAt_retireTo _ s _ _⟩

theorem loadValue_faults {w : Width} {reg : Reg} {value : Res Word32} {f : Fault} {s : State} (hp : Plain s)
    (hf : value = .fault f) : loadValue w reg value s = .fault f := by
  subst hf
  exact carrier_eq_body hp _

section
variable {op : Size} {s : State} (reg : Reg)

theorem exec_movR8Rm8 (rm : Rm) : exec (.movR8Rm8 reg rm) s = loadValue .w8 reg (readRm .w8 rm s) s := rfl

theorem exec_movR8Imm (imm : Byte) :
    exec (.movR8Imm reg imm) s = loadValue .w8 reg (.next (imm.zeroExtend 32)) s := rfl

theorem exec_movRRm (hop : opsize s = op) (rm : Rm) :
    exec (.movRRm reg rm) s = loadValue op.width reg (readRm op.width rm s) s := by
  subst hop; rfl

theorem exec_lea (hop : opsize s = op) (rm : Rm) :
    exec (.lea reg rm) s = loadValue op.width reg (leaOffset rm s) s := by
  subst hop; rfl

theorem exec_movRImm (hop : opsize s = op) (imm : Word32) :
    exec (.movRImm reg imm) s = loadValue op.width reg (.next imm) s := by
  subst hop; rfl

end

/-! ## Instructions that write an r/m operand -/

/-- What the four stores share: the value goes into the r/m operand, and the instruction ends. -/
def storeValue (w : Width) (rm : Rm) (v : Word32) (s : State) : Res State :=
  carrier s (andThen (writeRm w rm v s) fun t => .next (retire t))

theorem storeValue_completes {w : Width} {rm : Rm} {v : Word32} {s : State} (hp : Plain s) (hw : RmWritable w rm s) :
    ∃ t, storeValue w rm v s = .next t ∧ RmWritten w rm v s t ∧ EndedAt (s.ip + BitVec.ofNat 32 s.dec.n) s t := by
  rw [storeValue, carrier_eq_body hp]
  cases rm with
  | reg r =>
    exact ⟨retire (writeReg w r v s), rfl, ⟨viewHolds_retireTo (viewHolds_writeReg w r v s), fun _ => rfl⟩,
      endedAt_retireTo _ s _ _⟩
  | mem m =>
    obtain ⟨hrange, hcode, hadmit⟩ := hw
    rw [writeRm, (memWrite_next_iff _ _ _ _ v s _).mpr ⟨hrange, hcode, hadmit, rfl⟩]
    exact ⟨_, rfl, ⟨bytesStored_writeBytes w (operandAddress m s) v s, fun _ => rfl⟩, endedAt_retireTo _ s _ _⟩

theorem storeValue_faults {w : Width} {m : MemForm} {s : State} (h : StoreNotAdmitted w m s) (v : Word32) :
    storeValue w (.mem m) v s = .fault (notAdmitted m w.bytes .write s) := by
  obtain ⟨hp, hrange, hcode, hdenied⟩ := h
  rw [storeValue, carrier_eq_body hp, writeRm, memWrite_of_denied hrange hcode hdenied]
  rfl

section
variable {op : Size} {s : State} (rm : Rm)

theorem exec_movRm8R8 (reg : Reg) : exec (.movRm8R8 rm reg) s = storeValue .w8 rm (readReg .w8 reg s) s := rfl

theorem exec_movRm8Imm (imm : Byte) : exec (.movRm8Imm rm imm) s = storeValue .w8 rm (imm.zeroExtend 32) s := rfl

theorem exec_movRmR (hop : opsize s = op) (reg : Reg) :
    exec (.movRmR rm reg) s = storeValue op.width rm (readReg op.width reg s) s := by
  subst hop; rfl

theorem exec_movRmImm (hop : opsize s = op) (imm : Word32) :
    exec (.movRmImm rm imm) s = storeValue op.width rm imm s := by
  subst hop; rfl

end

/-! ## Jumps -/

/-- A relative jump's target, its size test as the claims write it (42 R141). -/
theorem branchTarget_eq (rel : Byte) (s : State) : branchTarget rel s =
    if opsize s = .s16 then (s.ip + BitVec.ofNat 32 s.dec.n + rel.signExtend 32) &&& 0x0000FFFF
    else s.ip + BitVec.ofNat 32 s.dec.n + rel.signExtend 32 := by
  unfold branchTarget
  cases opsize s <;> rfl

theorem zeroExtend_eq_zero_iff (c : Word16) : c.zeroExtend 32 = 0 ↔ c = 0 := by
  bv_omega

/-- LOOP jumps exactly when the count register of the address size did not hold 1 (42 R142). -/
theorem loopTaken_iff_s16 {s : State} (had : adsize s = .s16) : loopTaken s = true ↔ ¬ r16 .ecx s = 1 := by
  rw [loopTaken, loopCount, had, bne_iff_ne, Ne, zeroExtend_eq_zero_iff, sub_eq_zero]

theorem loopTaken_iff_s32 {s : State} (had : adsize s = .s32) : loopTaken s = true ↔ ¬ r32 .ecx s = 1 := by
  rw [loopTaken, loopCount, had, bne_iff_ne, Ne, sub_eq_zero]

/-- LOOP completes for every count: the count register written, and `ip` at the target or past the instruction. -/
theorem exec_loop_completes (rel : Byte) {s : State} (hp : Plain s) :
    ∃ t, exec (.loop rel) s = .next t ∧ ViewHolds (adsize s).width .ecx (loopCount s) s t ∧ SameMemory s t ∧
      EndedAt (if loopTaken s then branchTarget rel s else nextIp s) s t :=
  ⟨_, carrier_eq_body hp _, viewHolds_retireTo (viewHolds_writeReg (adsize s).width .ecx (loopCount s) s),
    fun _ => rfl, endedAt_retireTo _ s _ _⟩

end Sys2Proof.Machine
end

section
/-! What is claimed of each carrier instruction (spec 42_carrier_instructions.md R131 to R142): its bytes decode to it,
and it completes with its effect or ends with the fault of its one access. -/

namespace Sys2Proof.Machine

open Sys2Proof.Claims

/-! ## Stores -/

/-- Settles O42: one of the stores, at width 8. -/
theorem movRm8R8Stores : Obligations.MovRm8R8Stores := by
  refine ⟨fun op ad m bs => decode_of_modRm (k := .movRm8R8) rfl rfl, fun rm reg s hp hw => ?_, fun m reg s h => ?_⟩
  · rw [exec_movRm8R8]
    exact storeValue_completes hp hw
  · rw [exec_movRm8R8]
    exact storeValue_faults h _

/-- Settles O43: one of the stores, at the operand size's width. -/
theorem movRmRStores : Obligations.MovRmRStores := by
  refine ⟨fun op ad m bs => decode_of_modRm (k := .movRmR) rfl rfl,
    fun rm reg s hp => ⟨fun hop hw => ?_, fun hop hw => ?_⟩, fun m reg s h => ?_⟩
  · rw [exec_movRmR rm hop]
    exact storeValue_completes hp hw
  · rw [exec_movRmR rm hop]
    exact storeValue_completes hp hw
  · rw [exec_movRmR (.mem m) rfl]
    exact storeValue_faults h _

/-- Settles O49: one of the stores, at width 8, its opcode with the digit 0. -/
theorem movRm8ImmStores : Obligations.MovRm8ImmStores := by
  refine ⟨fun op ad m bs h => ?_, fun op ad m imm bs rm rest h hrm => ?_, fun rm imm s hp hw => ?_,
    fun m imm s h => ?_⟩
  · exact decode_of_other_digit (k := .movRm8Imm) rfl rfl h
  · exact decode_of_digit0 (k := .movRm8Imm) rfl rfl h hrm
  · rw [exec_movRm8Imm]
    exact storeValue_completes hp hw
  · rw [exec_movRm8Imm]
    exact storeValue_faults h _

/-- Settles O50: one of the stores, at the operand size's width, its opcode with the digit 0. -/
theorem movRmImmStores : Obligations.MovRmImmStores := by
  refine ⟨fun op ad m bs h => ?_, fun ad m b0 b1 bs rm rest h hrm => ?_, fun ad m b0 b1 b2 b3 bs rm rest h hrm => ?_,
    fun rm imm s hp => ⟨fun hop hw => ?_, fun hop hw => ?_⟩, fun m imm s h => ?_⟩
  · exact decode_of_other_digit (k := .movRmImm) rfl rfl h
  · exact decode_of_digit0 (k := .movRmImm) rfl rfl h hrm
  · exact decode_of_digit0 (k := .movRmImm) rfl rfl h hrm
  · rw [exec_movRmImm rm hop]
    exact storeValue_completes hp hw
  · rw [exec_movRmImm rm hop]
    exact storeValue_completes hp hw
  · rw [exec_movRmImm (.mem m) rfl]
    exact storeValue_faults h _

/-! ## Loads -/

/-- Settles O44: the read's value or the read's fault, at width 8. -/
theorem movR8Rm8Loads : Obligations.MovR8Rm8Loads := by
  refine ⟨fun op ad m bs => decode_of_modRm (k := .movR8Rm8) rfl rfl, fun reg rm s hp hr => ?_, fun reg m s h => ?_⟩
  · rw [exec_movR8Rm8]
    exact loadValue_completes hp (readRm_of_readable hr)
  · rw [exec_movR8Rm8]
    exact loadValue_faults h.1 (readRm_of_denied h)

/-- Settles O45: the read's value in the state before, or the read's fault, at the operand size's width. -/
theorem movRRmLoads : Obligations.MovRRmLoads := by
  refine ⟨fun op ad m bs => decode_of_modRm (k := .movRRm) rfl rfl,
    fun reg rm s hp => ⟨fun hop hr => ?_, fun hop hr => ?_⟩, fun reg m s h => ?_⟩
  · rw [exec_movRRm reg hop]
    exact loadValue_completes hp (readRm_of_readable hr)
  · rw [exec_movRRm reg hop]
    exact loadValue_completes hp (readRm_of_readable hr)
  · rw [exec_movRRm reg rfl]
    exact loadValue_faults h.1 (readRm_of_denied h)

/-- Settles O46: `leaOffset` answers a form's offset and asks the environment nothing. -/
theorem leaLoadsOffset : Obligations.LeaLoadsOffset := by
  refine ⟨fun op ad m bs => decode_of_modRm (k := .lea) rfl rfl,
    fun reg s hp => ⟨fun r => ?_, fun m hop => ?_, fun m hop => ?_⟩⟩
  · rw [exec_lea reg rfl]
    exact loadValue_faults hp rfl
  · rw [exec_lea reg hop]
    exact loadValue_completes hp rfl
  · rw [exec_lea reg hop]
    exact loadValue_completes hp rfl

/-- Settles O47: the opcode's low three bits are the register, and the value is the immediate. -/
theorem movR8ImmLoads : Obligations.MovR8ImmLoads :=
  ⟨decode_movR8Imm, fun reg imm s hp => exec_movR8Imm (s := s) reg imm ▸ loadValue_completes hp rfl⟩

/-- Settles O48: the same at the operand size's width, which is the immediate's length too. -/
theorem movRImmLoads : Obligations.MovRImmLoads := by
  refine ⟨fun ad reg b0 b1 b2 b3 rest => ⟨decode_movRImm rfl ad reg, decode_movRImm rfl ad reg⟩,
    fun reg imm s hp => ⟨fun hop => ?_, fun hop => ?_⟩⟩
  · rw [exec_movRImm reg hop]
    exact loadValue_completes hp rfl
  · rw [exec_movRImm reg hop]
    exact loadValue_completes hp rfl

/-! ## NOP and the jumps -/

/-- Settles O41: the instruction is ended, and nothing else is done. -/
theorem nopOnlyAdvances : Obligations.NopOnlyAdvances :=
  ⟨fun _ _ _ => rfl, fun s hp =>
    ⟨retire s, carrier_eq_body hp _, fun _ => rfl, fun _ => rfl, endedAt_retireTo _ s s.regs s.mem⟩⟩

/-- Settles O51: the instruction is ended at `branchTarget`. -/
theorem jmpGoesToTarget : Obligations.JmpGoesToTarget := by
  refine ⟨fun _ _ _ _ => rfl, fun rel s hp => ?_⟩
  intro target
  rw [← branchTarget_eq]
  exact ⟨retireTo (branchTarget rel s) s, carrier_eq_body hp _, fun _ => rfl, fun _ => rfl,
    endedAt_retireTo _ s s.regs s.mem⟩

/-- Settles O52: `exec_loop_completes`, its count and its test read off by the address size. -/
theorem loopCountsAndJumps : Obligations.LoopCountsAndJumps := by
  refine ⟨fun _ _ _ _ => rfl, fun rel s hp => ?_⟩
  intro next target taken
  have htaken : taken = branchTarget rel s := (branchTarget_eq rel s).symm
  have hloop := exec_loop_completes rel hp
  rw [htaken]
  constructor
  · intro had
    rwa [had, loopCount, had, if_congr (loopTaken_iff_s16 had) rfl rfl, ite_not] at hloop
  · intro had
    rwa [had, loopCount, had, if_congr (loopTaken_iff_s32 had) rfl rfl, ite_not] at hloop

end Sys2Proof.Machine
end

section
/-! The decoder undoes the encoder: the r/m operand's bytes first, then each opcode (spec 30_encoding.md sections 1 to
6, 40_prefixes.md R81 to R92, 42_carrier_instructions.md R131 to R142). -/

namespace Sys2Proof

/-! ## Which rows of Tables 17-2 to 17-4 a base register or register sum has -/

theorem Base16.wf_iff (b : Base16) (d : Disp16) : b.wf d = true ↔ ¬ (d.mode = 0#2 ∧ b.num = 6#3) := by
  cases b <;> cases d <;> simp [Base16.wf, Disp16.mode, Base16.num]

theorem Reg.wfSibBase_iff (b : Reg) (d : Disp32) : b.wfSibBase d = true ↔ ¬ (d.mode = 0#2 ∧ b.num = 5#3) := by
  cases b <;> cases d <;> simp [Reg.wfSibBase, Disp32.mode, Reg.num]

theorem Reg.wfBase_iff (b : Reg) (d : Disp32) :
    b.wfBase d = true ↔ b.num ≠ 4#3 ∧ ¬ (d.mode = 0#2 ∧ b.num = 5#3) := by
  rw [← Reg.wfSibBase_iff, Reg.wfBase, Bool.and_eq_true, Reg.wfSibBase]
  cases b <;> simp [Reg.num]

/-! ## The r/m operand -/

@[simp] theorem takeDisp16_encode (d : Disp16) (rest : List Byte) :
    takeDisp16 d.mode (d.encode ++ rest) = .ok (d, rest) := by
  cases d <;> simp [takeDisp16, Disp16.mode, Disp16.encode]

@[simp] theorem takeDisp32_encode (d : Disp32) (rest : List Byte) :
    takeDisp32 d.mode (d.encode ++ rest) = .ok (d, rest) := by
  cases d <;> simp [takeDisp32, Disp32.mode, Disp32.encode]

@[simp] theorem Disp16.mode_ne_three (d : Disp16) : d.mode ≠ 3#2 := by cases d <;> simp [Disp16.mode]

@[simp] theorem Disp32.mode_ne_three (d : Disp32) : d.mode ≠ 3#2 := by cases d <;> simp [Disp32.mode]

/-- The encoding of a well-formed r/m operand begins with a ModR/M byte of the reg field asked for, and that byte
decodes, with the bytes after it, to the operand. -/
theorem Rm.encode_eq_cons {ad : Size} {rm : Rm} (h : rm.wf ad = true) (reg : BitVec 3) :
    ∃ m tail, rm.encode reg = m :: tail ∧ midField m = reg ∧
      ∀ rest, decodeRm ad m (tail ++ rest) = .ok (rm, rest) := by
  refine match rm, h with
    | .reg r, _ => ⟨_, _, rfl, by simp, fun rest => by simp [decodeRm]⟩
    | .mem (.abs16 d), h => ⟨_, _, rfl, by simp, fun rest => ?_⟩
    | .mem (.based16 b d), h => ⟨_, _, rfl, by simp, fun rest => ?_⟩
    | .mem (.abs32 d), h => ⟨_, _, rfl, by simp, fun rest => ?_⟩
    | .mem (.based32 b d), h => ⟨_, _, rfl, by simp, fun rest => ?_⟩
    | .mem (.sib ss index b d), h => ⟨_, _, rfl, by simp, fun rest => ?_⟩
    | .mem (.sibAbs ss index d), h => ⟨_, _, rfl, by simp, fun rest => ?_⟩
  · obtain rfl : ad = .s16 := by simpa [Rm.wf, MemForm.wf] using h
    simp [decodeRm, decodeMem16]
  · obtain ⟨rfl, hrow⟩ : ad = .s16 ∧ b.wf d = true := by simpa [Rm.wf, MemForm.wf] using h
    simp [decodeRm, decodeMem16, (b.wf_iff d).mp hrow]
  · obtain rfl : ad = .s32 := by simpa [Rm.wf, MemForm.wf] using h
    simp [decodeRm, decodeMem32, sibFollows]
  · obtain ⟨rfl, hrow⟩ : ad = .s32 ∧ b.wfBase d = true := by simpa [Rm.wf, MemForm.wf] using h
    simp [decodeRm, decodeMem32, sibFollows, (b.wfBase_iff d).mp hrow]
  · obtain ⟨rfl, hrow⟩ : ad = .s32 ∧ b.wfSibBase d = true := by simpa [Rm.wf, MemForm.wf] using h
    simp [decodeRm, decodeSib, sibFollows, (b.wfSibBase_iff d).mp hrow]
  · obtain rfl : ad = .s32 := by simpa [Rm.wf, MemForm.wf] using h
    simp [decodeRm, decodeSib, sibFollows]

/-! ## Every unit -/

section
variable {op ad : Size} {b : Byte} {k : OpKind} {rm : Rm}

/-- An opcode whose unit is its ModR/M byte and the r/m operand. -/
theorem decode_modRm_encode {f : Reg × Rm → Instr} (hop : lookupOp b = some k)
    (hkind : ∀ bs, decodeKind op ad b k bs = (takeModRm ad bs).map f) (h : rm.wf ad = true) (reg : Reg)
    (rest : List Byte) : decode op ad (b :: (rm.encode reg.num ++ rest)) = .ok (f (reg, rm), rest) := by
  obtain ⟨m, tail, hcons, hmid, hdecode⟩ := Rm.encode_eq_cons h reg.num
  rw [hcons, List.cons_append, decode_of_modRm hop (hkind _), hdecode, hmid, Reg.ofNum_num]
  rfl

/-- An opcode under which the reg field must be the digit 0: `g` reads on after the r/m operand. -/
theorem decode_digit0_encode {g : Rm → List Byte → Decoded Instr} (hop : lookupOp b = some k)
    (hkind : ∀ bs, decodeKind op ad b k bs = (takeDigit0 b ad bs).bind g) (h : rm.wf ad = true) (rest : List Byte) :
    decode op ad (b :: (rm.encode 0#3 ++ rest)) = g rm rest := by
  obtain ⟨m, tail, hcons, hmid, hdecode⟩ := Rm.encode_eq_cons h 0#3
  rw [hcons, List.cons_append, decode_of_digit0 hop (hkind _) hmid (hdecode rest)]

end

theorem opcodeReg_B0 (r : Reg) : opcodeReg 0xB0 r = BitVec.ofNat 8 (0xB0 + r.num.toNat) := by cases r <;> rfl

theorem opcodeReg_B8 (r : Reg) : opcodeReg 0xB8 r = BitVec.ofNat 8 (0xB8 + r.num.toNat) := by cases r <;> rfl

/-- Settles O2: by constructors, each opcode byte looked up and each field read back. -/
theorem decodeOfEncodeIsInstruction : Obligations.DecodeOfEncodeIsInstruction := by
  intro op ad i rest hwf hne
  cases i
  case repe => exact absurd rfl hne
  case movRm8R8 rm reg => exact decode_modRm_encode (k := .movRm8R8) rfl (fun _ => rfl) hwf reg rest
  case movRmR rm reg => exact decode_modRm_encode (k := .movRmR) rfl (fun _ => rfl) hwf reg rest
  case movR8Rm8 reg rm => exact decode_modRm_encode (k := .movR8Rm8) rfl (fun _ => rfl) hwf reg rest
  case movRRm reg rm => exact decode_modRm_encode (k := .movRRm) rfl (fun _ => rfl) hwf reg rest
  case lea reg rm => exact decode_modRm_encode (k := .lea) rfl (fun _ => rfl) hwf reg rest
  case movR8Imm reg imm =>
    rw [encode, opcodeReg_B0]
    exact decode_movR8Imm op ad reg imm rest
  case movRImm reg imm =>
    rw [encode, opcodeReg_B8]
    exact decode_movRImm (takeImm_immBytes op imm rest hwf) ad reg
  case movRm8Imm rm imm =>
    rw [encode, List.cons_append, List.append_assoc]
    exact decode_digit0_encode (k := .movRm8Imm) rfl (fun _ => rfl) hwf _
  case movRmImm rm imm =>
    obtain ⟨hrm, himm⟩ : rm.wf ad = true ∧ immWf op imm = true := by simpa [Instr.wf] using hwf
    rw [encode, List.cons_append, List.append_assoc,
      decode_digit0_encode (k := .movRmImm) rfl (fun _ => rfl) hrm, takeImm_immBytes op imm rest himm]
    rfl
  all_goals rfl

end Sys2Proof
end

section
/-! The encoder undoes the decoder: what is read is well formed, and its bytes stood at the front (spec 30_encoding.md
sections 1 to 6). -/

namespace Sys2Proof

/-! ## The r/m operand -/

section
variable {md : BitVec 2} {r : BitVec 3} {bs rest : List Byte} {f : MemForm} (reg : BitVec 3)

theorem decodeMem16_wf (h : decodeMem16 md r bs = .ok (f, rest)) (h3 : md ≠ 3#2) :
    (Rm.mem f).wf .s16 = true ∧ fieldByte md reg r :: bs = (Rm.mem f).encode reg ++ rest := by
  rcases decodeMem16_ok h h3 with ⟨rfl, rfl, d, rfl, rfl⟩ | ⟨hrow, d, rfl, rfl, rfl⟩
  · exact ⟨rfl, rfl⟩
  · exact ⟨by simpa [Rm.wf, MemForm.wf, Base16.wf_iff] using hrow, by simp [Rm.encode]⟩

theorem decodeMem32_wf (h : decodeMem32 md r bs = .ok (f, rest)) (h3 : md ≠ 3#2) (h4 : r ≠ 4#3) :
    (Rm.mem f).wf .s32 = true ∧ fieldByte md reg r :: bs = (Rm.mem f).encode reg ++ rest := by
  rcases decodeMem32_ok h h3 with ⟨rfl, rfl, d, rfl, rfl⟩ | ⟨hrow, d, rfl, rfl, rfl⟩
  · exact ⟨rfl, rfl⟩
  · exact ⟨by simpa [Rm.wf, MemForm.wf, Reg.wfBase_iff, h4] using hrow, by simp [Rm.encode]⟩

theorem decodeSib_wf {sb : Byte} (h : decodeSib md sb bs = .ok (f, rest)) (h3 : md ≠ 3#2) :
    (Rm.mem f).wf .s32 = true ∧ fieldByte md reg 4#3 :: sb :: bs = (Rm.mem f).encode reg ++ rest := by
  have hsb := fieldByte_fields sb
  rcases decodeSib_ok h h3 with ⟨rfl, h5, d, rfl, rfl⟩ | ⟨hrow, d, rfl, rfl, rfl⟩
  · rw [h5] at hsb
    exact ⟨rfl, by simp [Rm.encode, hsb]⟩
  · exact ⟨by simpa [Rm.wf, MemForm.wf, Reg.wfSibBase_iff] using hrow, by simp [Rm.encode, hsb]⟩

end

theorem decodeRm_wf {ad : Size} {m : Byte} {bs rest : List Byte} {rm : Rm} (h : decodeRm ad m bs = .ok (rm, rest)) :
    rm.wf ad = true ∧ m :: bs = rm.encode (midField m) ++ rest := by
  have hm := fieldByte_fields m
  rcases decodeRm_ok h with ⟨h3, rfl, rfl⟩ | ⟨h3, rfl, f, rfl, hf⟩ | ⟨h3, rfl, h4, sb, q, f, rfl, rfl, hf⟩ |
    ⟨h3, rfl, h4, f, rfl, hf⟩
  · rw [h3] at hm
    exact ⟨rfl, by simp [Rm.encode, hm]⟩
  · simpa only [hm] using decodeMem16_wf (midField m) hf h3
  · rw [h4] at hm
    simpa only [hm] using decodeSib_wf (midField m) hf h3
  · simpa only [hm] using decodeMem32_wf (midField m) hf h3 h4

theorem takeImm_wf {op : Size} {bs rest : List Byte} {imm : Word32} (h : takeImm op bs = .ok (imm, rest)) :
    immWf op imm = true ∧ bs = immBytes op imm ++ rest := by
  cases op with
  | s16 =>
    obtain ⟨w, hw, rfl⟩ := Decoded.map_eq_ok.mp h
    rw [takeWord16_eq_ok hw]
    simp [immWf, immBytes]
    omega
  | s32 => exact ⟨rfl, takeWord32_eq_ok h⟩

/-! ## The opcode byte -/

/-- The byte of a row of the opcode map; `r` is the register number in bits 2:0 of the two opcodes that hold one. -/
def OpKind.byte (r : BitVec 3) : OpKind → Byte
  | .rep => 0xF3
  | .repne => 0xF2
  | .lock => 0xF0
  | .cs => 0x2E
  | .ss => 0x36
  | .ds => 0x3E
  | .es => 0x26
  | .fs => 0x64
  | .gs => 0x65
  | .opsize => 0x66
  | .adsize => 0x67
  | .nop => 0x90
  | .movRm8R8 => 0x88
  | .movRmR => 0x89
  | .movR8Rm8 => 0x8A
  | .movRRm => 0x8B
  | .lea => 0x8D
  | .movR8Imm => opcodeReg 0xB0 (Reg.ofNum r)
  | .movRImm => opcodeReg 0xB8 (Reg.ofNum r)
  | .movRm8Imm => 0xC6
  | .movRmImm => 0xC7
  | .jmp => 0xEB
  | .loop => 0xE2
  | .escape => 0x0F

/-- A byte that matches a row of the map is that row's byte: the map ignores no bit. -/
theorem eq_byte_of_lookup {b : Byte} {k : OpKind} (h : lookupOp b = some k) : b = k.byte (lowField b) := by
  have hall : ∀ b : Byte, (lookupOp b).all fun k => b == k.byte (lowField b) := by decide
  simpa [h] using hall b

/-! ## Every unit -/

section
variable {ad : Size} {bs rest : List Byte} {i : Instr}

theorem modRm_unit {f : Reg × Rm → Instr} (h : (takeModRm ad bs).map f = .ok (i, rest)) :
    ∃ reg rm, i = f (reg, rm) ∧ rm.wf ad = true ∧ bs = rm.encode reg.num ++ rest := by
  obtain ⟨p, hp, rfl⟩ := Decoded.map_eq_ok.mp h
  obtain ⟨m, q, hm, hp⟩ := Decoded.bind_eq_ok.mp hp
  obtain ⟨rm, hrm, rfl⟩ := Decoded.map_eq_ok.mp hp
  obtain ⟨hwf, hbytes⟩ := decodeRm_wf hrm
  exact ⟨_, rm, rfl, hwf, by rw [takeByte_eq_ok hm, hbytes, Reg.num_ofNum]⟩

theorem digit0_unit {b : Byte} {g : Rm → List Byte → Decoded Instr}
    (h : (takeDigit0 b ad bs).bind g = .ok (i, rest)) :
    ∃ rm q, g rm q = .ok (i, rest) ∧ rm.wf ad = true ∧ bs = rm.encode 0#3 ++ q := by
  obtain ⟨rm, q, hrm, h⟩ := Decoded.bind_eq_ok.mp h
  obtain ⟨m, p, hm, hrm⟩ := Decoded.bind_eq_ok.mp hrm
  split at hrm
  case isTrue hdigit =>
    obtain ⟨hwf, hbytes⟩ := decodeRm_wf hrm
    exact ⟨rm, q, h, hwf, by rw [takeByte_eq_ok hm, hbytes, hdigit]⟩
  case isFalse => cases hrm

theorem byte_unit {f : Byte → Instr} (h : (takeByte bs).map f = .ok (i, rest)) : ∃ v, i = f v ∧ bs = v :: rest := by
  obtain ⟨v, hv, rfl⟩ := Decoded.map_eq_ok.mp h
  exact ⟨v, rfl, takeByte_eq_ok hv⟩

theorem imm_unit {op : Size} {f : Word32 → Instr} (h : (takeImm op bs).map f = .ok (i, rest)) :
    ∃ v, i = f v ∧ immWf op v = true ∧ bs = immBytes op v ++ rest := by
  obtain ⟨v, hv, rfl⟩ := Decoded.map_eq_ok.mp h
  exact ⟨v, rfl, takeImm_wf hv⟩

/-- What follows an opcode byte of kind `k` that the decoder accepts: the unit is well formed, and its encoding is that
byte and the bytes taken after it. -/
theorem decodeKind_wf {op : Size} {b : Byte} {k : OpKind} (h : decodeKind op ad b k bs = .ok (i, rest)) :
    i.wf op ad = true ∧ i ≠ .repe ∧ k.byte (lowField b) :: bs = encode op i ++ rest := by
  cases k
  case movRm8R8 | movRmR | movR8Rm8 | movRRm | lea =>
    obtain ⟨reg, rm, rfl, hwf, rfl⟩ := modRm_unit h
    exact ⟨hwf, nofun, rfl⟩
  case movR8Imm | jmp | loop =>
    obtain ⟨v, rfl, rfl⟩ := byte_unit h
    exact ⟨rfl, nofun, rfl⟩
  case movRImm =>
    obtain ⟨imm, rfl, hwf, rfl⟩ := imm_unit h
    exact ⟨hwf, nofun, rfl⟩
  case movRm8Imm =>
    obtain ⟨rm, q, hq, hwf, rfl⟩ := digit0_unit h
    obtain ⟨imm, rfl, rfl⟩ := byte_unit hq
    exact ⟨hwf, nofun, by simp [encode, OpKind.byte]⟩
  case movRmImm =>
    obtain ⟨rm, q, hq, hrm, rfl⟩ := digit0_unit h
    obtain ⟨imm, rfl, himm, rfl⟩ := imm_unit hq
    exact ⟨by simp [Instr.wf, hrm, himm], nofun, by simp [encode, OpKind.byte]⟩
  case escape =>
    obtain ⟨_, _, _, h⟩ := Decoded.bind_eq_ok.mp h
    cases h
  all_goals
    cases h
    exact ⟨rfl, nofun, rfl⟩

end

/-- Settles O3: `decodeKind_wf`, with the opcode byte that of its row by `eq_byte_of_lookup`. -/
theorem encodeOfDecodeIsBytes : Obligations.EncodeOfDecodeIsBytes := by
  intro op ad bs rest i h
  cases bs with
  | nil => cases h
  | cons b bs =>
    cases hk : lookupOp b with
    | none => simp [decode, hk] at h
    | some k =>
      rw [decode_of_lookup hk] at h
      rw [show b :: bs = k.byte (lowField b) :: bs from congrArg (· :: bs) (eq_byte_of_lookup hk)]
      exact decodeKind_wf h

end Sys2Proof
end

section
/-! Where the decoder stops: for want of a byte, or at an opcode or digit that the map does not define (spec
30_encoding.md R65, R70; 42_carrier_instructions.md R139, R140, R144). -/

namespace Sys2Proof

open Sys2Proof.Claims

/-! ## The fields after the opcode stop for want of a byte only -/

/-- Reading `x` from the bytes `bs` stops only for want of a byte, and not with `n` bytes there. -/
def StopsShort {α : Type} (n : Nat) (bs : List Byte) (x : Decoded α) : Prop :=
  ∀ e, x = .error e → e = .truncated ∧ bs.length < n

section
variable {α β : Type} {n : Nat} {bs : List Byte} {x : Decoded α}

theorem StopsShort.map (h : StopsShort n bs x) (f : α → β) : StopsShort n bs (x.map f) :=
  fun e he => h e (Decoded.map_eq_error.mp he)

theorem StopsShort.mono {k : Nat} (h : StopsShort n bs x) (hnk : n ≤ k) : StopsShort k bs x :=
  fun e he => ⟨(h e he).1, (h e he).2.trans_le hnk⟩

theorem StopsShort.exists_ok (h : StopsShort n bs x) (hn : n ≤ bs.length) : ∃ a rest, x = .ok (a, rest) := by
  cases x with
  | error e => exact absurd (h e rfl).2 (Nat.not_lt.mpr hn)
  | ok p => exact ⟨p.1, p.2, rfl⟩

theorem StopsShort.ne_unknown (h : StopsShort n bs x) (c : Byte) : x ≠ .error (.unknownOpcode c) :=
  fun he => nomatch (h _ he).1

/-- A byte is read first, and then `f` reads on. -/
theorem stopsShort_bind_takeByte {f : Byte → List Byte → Decoded β} (h : ∀ b q, StopsShort n q (f b q)) :
    StopsShort (n + 1) bs ((takeByte bs).bind f) := by
  cases bs with
  | nil => rintro e ⟨⟩; exact ⟨rfl, Nat.succ_pos n⟩
  | cons b q => exact fun e he => ⟨(h b q e he).1, Nat.succ_lt_succ (h b q e he).2⟩

end

theorem stopsShort_takeByte (bs : List Byte) : StopsShort 1 bs (takeByte bs) := by
  cases bs with
  | nil => rintro e ⟨⟩; exact ⟨rfl, Nat.one_pos⟩
  | cons b q => nofun

theorem stopsShort_takeWord16 (bs : List Byte) : StopsShort 2 bs (takeWord16 bs) :=
  match bs with
  | [] | [_] => by rintro e ⟨⟩; simp
  | _ :: _ :: _ => nofun

theorem stopsShort_takeWord32 (bs : List Byte) : StopsShort 4 bs (takeWord32 bs) :=
  match bs with
  | [] | [_] | [_, _] | [_, _, _] => by rintro e ⟨⟩; simp
  | _ :: _ :: _ :: _ :: _ => nofun

theorem stopsShort_takeImm (op : Size) (bs : List Byte) : StopsShort 4 bs (takeImm op bs) := by
  cases op with
  | s16 => exact ((stopsShort_takeWord16 bs).map _).mono (by decide)
  | s32 => exact stopsShort_takeWord32 bs

theorem stopsShort_takeDisp16 (md : BitVec 2) (bs : List Byte) : StopsShort 2 bs (takeDisp16 md bs) := by
  unfold takeDisp16
  split
  · nofun
  · exact ((stopsShort_takeByte bs).map _).mono (by decide)
  · exact (stopsShort_takeWord16 bs).map _

theorem stopsShort_takeDisp32 (md : BitVec 2) (bs : List Byte) : StopsShort 4 bs (takeDisp32 md bs) := by
  unfold takeDisp32
  split
  · nofun
  · exact ((stopsShort_takeByte bs).map _).mono (by decide)
  · exact (stopsShort_takeWord32 bs).map _

theorem stopsShort_decodeMem16 (md : BitVec 2) (r : BitVec 3) (bs : List Byte) :
    StopsShort 2 bs (decodeMem16 md r bs) := by
  unfold decodeMem16
  split
  · exact (stopsShort_takeWord16 bs).map _
  · exact (stopsShort_takeDisp16 md bs).map _

theorem stopsShort_decodeMem32 (md : BitVec 2) (r : BitVec 3) (bs : List Byte) :
    StopsShort 4 bs (decodeMem32 md r bs) := by
  unfold decodeMem32
  split
  · exact (stopsShort_takeWord32 bs).map _
  · exact (stopsShort_takeDisp32 md bs).map _

theorem stopsShort_decodeSib (md : BitVec 2) (sb : Byte) (bs : List Byte) :
    StopsShort 4 bs (decodeSib md sb bs) := by
  unfold decodeSib
  split
  · exact (stopsShort_takeWord32 bs).map _
  · exact (stopsShort_takeDisp32 md bs).map _

/-- A ModR/M byte asks for a SIB byte and four displacement bytes at the most. -/
theorem stopsShort_decodeRm (ad : Size) (m : Byte) (bs : List Byte) : StopsShort 5 bs (decodeRm ad m bs) := by
  unfold decodeRm
  split
  · nofun
  · cases ad with
    | s16 => exact ((stopsShort_decodeMem16 _ _ bs).map _).mono (by decide)
    | s32 =>
      dsimp only
      split
      · exact (stopsShort_bind_takeByte fun sb q => stopsShort_decodeSib _ sb q).map _
      · exact ((stopsShort_decodeMem32 _ _ bs).map _).mono (by decide)

theorem stopsShort_takeModRm (ad : Size) (bs : List Byte) : StopsShort 6 bs (takeModRm ad bs) :=
  stopsShort_bind_takeByte fun m q => (stopsShort_decodeRm ad m q).map _

/-- Settles O6: five bytes are all that a ModR/M byte can ask for. -/
theorem everyModRmAndSibByteIsDefined : Obligations.EveryModRmAndSibByteIsDefined :=
  fun ad m bs h => (stopsShort_decodeRm ad m bs).exists_ok h

/-! ## What the map does not define -/

/-- The map has a row for the carrier bytes, the prefix bytes and 0Fh, and for no other byte. -/
theorem lookupOp_eq_none_iff (b : Byte) :
    lookupOp b = none ↔ b ∉ carrierBytes ∧ b ∉ prefixBytes ∧ b ≠ 0x0F := by
  revert b; decide

/-- The three ways to an undefined opcode are refused, whatever bytes follow. -/
theorem decode_of_undefinedOpcode {b : Byte} {tail : List Byte} (h : UndefinedOpcode b tail) (op ad : Size)
    (rest : List Byte) : decode op ad (tail ++ rest) = .error (.unknownOpcode b) := by
  rcases h with ⟨rfl, hundef⟩ | ⟨rfl, b2, rfl⟩ | ⟨rfl | rfl, m, hdigit, rfl⟩
  · simp [decode, (lookupOp_eq_none_iff b).mpr hundef]
  · rfl
  · exact decode_of_other_digit (k := .movRm8Imm) rfl rfl hdigit
  · exact decode_of_other_digit (k := .movRmImm) rfl rfl hdigit

section
variable {op ad : Size} {b c : Byte} {bs : List Byte}

/-- Under an opcode with the digit 0, only another digit is undefined. -/
theorem takeDigit0_unknown {g : Rm → List Byte → Decoded Instr} (hg : ∀ rm q, g rm q ≠ .error (.unknownOpcode c))
    (h : (takeDigit0 b ad bs).bind g = .error (.unknownOpcode c)) :
    c = b ∧ ∃ m q, midField m ≠ 0#3 ∧ bs = m :: q := by
  rcases Decoded.bind_eq_error.mp h with h | ⟨rm, q, -, h⟩
  · rcases Decoded.bind_eq_error.mp h with h | ⟨m, q, hm, h⟩
    · exact absurd h ((stopsShort_takeByte bs).ne_unknown c)
    · split at h
      case isTrue => exact absurd h ((stopsShort_decodeRm ad m q).ne_unknown c)
      case isFalse hdigit =>
        cases h
        exact ⟨rfl, m, q, hdigit, takeByte_eq_ok hm⟩
  · exact absurd h (hg rm q)

/-- What the decoder finds undefined under an opcode byte of the map: 0Fh with its second byte, or another digit. -/
theorem decodeKind_unknown {k : OpKind} (h : decodeKind op ad b k bs = .error (.unknownOpcode c)) :
    c = b ∧ ((k = .escape ∧ bs ≠ []) ∨
      (k = .movRm8Imm ∨ k = .movRmImm) ∧ ∃ m q, midField m ≠ 0#3 ∧ bs = m :: q) := by
  have hmodRm := fun f : Reg × Rm → Instr => ((stopsShort_takeModRm ad bs).map f).ne_unknown c
  have hbyte := fun (q : List Byte) (f : Byte → Instr) => ((stopsShort_takeByte q).map f).ne_unknown c
  have himm := fun (q : List Byte) (f : Word32 → Instr) => ((stopsShort_takeImm op q).map f).ne_unknown c
  cases k
  case movRm8R8 | movRmR | movR8Rm8 | movRRm | lea => exact absurd h (hmodRm _)
  case movR8Imm | jmp | loop => exact absurd h (hbyte _ _)
  case movRImm => exact absurd h (himm _ _)
  case movRm8Imm =>
    have hdigit := takeDigit0_unknown (fun _ q => hbyte q _) h
    exact ⟨hdigit.1, .inr ⟨.inl rfl, hdigit.2⟩⟩
  case movRmImm =>
    have hdigit := takeDigit0_unknown (fun _ q => himm q _) h
    exact ⟨hdigit.1, .inr ⟨.inr rfl, hdigit.2⟩⟩
  case escape =>
    cases bs with
    | nil => cases h
    | cons => cases h; exact ⟨rfl, .inl ⟨rfl, nofun⟩⟩
  all_goals cases h

/-- The three ways to an undefined opcode are the only ones. -/
theorem undefinedOpcode_of_decode (h : decode op ad bs = .error (.unknownOpcode c)) :
    ∃ tail rest, bs = tail ++ rest ∧ UndefinedOpcode c tail := by
  cases bs with
  | nil => cases h
  | cons b bs =>
    cases hk : lookupOp b with
    | none =>
      obtain rfl : b = c := by simpa [decode, hk] using h
      exact ⟨[b], bs, rfl, .inl ⟨rfl, (lookupOp_eq_none_iff b).mp hk⟩⟩
    | some k =>
      have hb := eq_byte_of_lookup hk
      rw [decode_of_lookup hk] at h
      obtain ⟨rfl, ⟨rfl, hne⟩ | ⟨hdigitOp, m, q, hdigit, rfl⟩⟩ := decodeKind_unknown h
      · obtain ⟨b2, q, rfl⟩ := List.exists_cons_of_ne_nil hne
        exact ⟨[c, b2], q, rfl, .inr (.inl ⟨hb, b2, rfl⟩)⟩
      · refine ⟨[c, m], q, rfl, .inr (.inr ⟨?_, m, hdigit, rfl⟩)⟩
        rcases hdigitOp with rfl | rfl
        · exact .inl hb
        · exact .inr hb

end

/-- Every carrier and prefix byte begins a unit that five zero bytes complete, for the ModR/M byte 00h takes no further
byte and has the digit 0. -/
theorem decode_zeros {b : Byte} (hb : b ∈ carrierBytes ∨ b ∈ prefixBytes) (op ad : Size) :
    ∃ i left, decode op ad (b :: [0, 0, 0, 0, 0]) = .ok (i, left) := by
  have hne : b ≠ 0x0F := by rintro rfl; revert hb; decide
  cases hk : lookupOp b with
  | none => exact absurd hb (not_or.mpr (((lookupOp_eq_none_iff b).mp hk).imp_right And.left))
  | some k =>
    have hesc : k ≠ .escape := by rintro rfl; exact hne (eq_byte_of_lookup hk)
    rw [decode_of_lookup hk]
    cases k
    case escape => exact absurd rfl hesc
    all_goals cases op <;> cases ad <;> exact ⟨_, _, rfl⟩

/-- Settles O4: undefined bytes by `decode_of_undefinedOpcode`, and the others begin a unit. -/
theorem undefinedOpcodesAreRefused : Obligations.UndefinedOpcodesAreRefused :=
  ⟨fun op ad _ rest hc hp h0F => decode_of_undefinedOpcode (.inl ⟨rfl, hc, hp, h0F⟩) op ad rest,
    fun op ad b2 rest => decode_of_undefinedOpcode (.inr (.inl ⟨rfl, b2, rfl⟩)) op ad rest,
    fun op ad _ hb => ⟨_, decode_zeros hb op ad⟩⟩

/-- Settles O5: the ModR/M byte with another digit is the third way to an undefined opcode. -/
theorem undefinedDigitIsRefused : Obligations.UndefinedDigitIsRefused :=
  fun op ad m rest h =>
    ⟨decode_of_undefinedOpcode (.inr (.inr ⟨.inl rfl, m, h, rfl⟩)) op ad rest,
      decode_of_undefinedOpcode (.inr (.inr ⟨.inr rfl, m, h, rfl⟩)) op ad rest⟩

/-- Settles O1: each word is read by the decoder's own evaluation. -/
theorem sampleWordsDecode : Obligations.SampleWordsDecode :=
  ⟨rfl, rfl, rfl, rfl, rfl, rfl⟩

/-! ## Every byte is needed -/

section
variable {op ad : Size} {bs rest : List Byte} {i : Instr}

/-- What the decoder accepts it accepts with more bytes behind. -/
theorem decode_append_of_ok (h : decode op ad bs = .ok (i, rest)) (more : List Byte) :
    decode op ad (bs ++ more) = .ok (i, rest ++ more) := by
  obtain ⟨hwf, hne, rfl⟩ := encodeOfDecodeIsBytes op ad bs rest i h
  rw [List.append_assoc]
  exact decodeOfEncodeIsInstruction op ad i _ hwf hne

/-- What the decoder finds undefined it finds so with more bytes behind. -/
theorem decode_append_of_unknown {c : Byte} (h : decode op ad bs = .error (.unknownOpcode c)) (more : List Byte) :
    decode op ad (bs ++ more) = .error (.unknownOpcode c) := by
  obtain ⟨tail, rest, rfl, hundef⟩ := undefinedOpcode_of_decode h
  rw [List.append_assoc]
  exact decode_of_undefinedOpcode hundef op ad _

/-- The encoding of REPE/REPZ, too, is that of some instruction the decoder gives. -/
theorem decode_encode_exists (h : i.wf op ad = true) : ∃ j, decode op ad (encode op i) = .ok (j, []) := by
  by_cases hne : i = .repe
  · exact ⟨.rep, by rw [hne]; rfl⟩
  · exact ⟨i, by simpa using decodeOfEncodeIsInstruction op ad i [] h hne⟩

end

/-- Settles O9: had the decoder stopped otherwise with the first `k` bytes, it would stop so with all of them, and with
a rest. -/
theorem decoderNeedsEveryByte : Obligations.DecoderNeedsEveryByte := by
  refine ⟨fun op ad i k hwf hk => ?_, fun _ _ => rfl⟩
  obtain ⟨j, hj⟩ := decode_encode_exists hwf
  rw [← List.take_append_drop k (encode op i)] at hj
  match hp : decode op ad ((encode op i).take k) with
  | .error .truncated => rfl
  | .error (.unknownOpcode c) =>
    rw [decode_append_of_unknown hp] at hj
    cases hj
  | .ok (i', rest) =>
    rw [decode_append_of_ok hp] at hj
    have hdrop : rest ++ (encode op i).drop k = [] := by injection hj with hj; injection hj
    have hlen := congrArg List.length hdrop
    simp only [List.length_append, List.length_drop, List.length_nil] at hlen
    omega

end Sys2Proof
end

section
/-! The operand forms against the spec's function `DecodeRM` over plain numbers (spec 41_address_forms.md R120). -/

namespace Sys2Proof.Machine

open Sys2Proof.Claims

/-! ## Fields, registers and displacements as numbers -/

@[simp] theorem toNat_midField (b : Byte) : (midField b).toNat = b.toNat / 8 % 8 := by
  simp [midField, BitVec.extractLsb'_toNat, Nat.shiftRight_eq_div_pow]

theorem num32_num (s : State) (r : Reg) : num32 s r.num.toNat = (r32 r s).toNat := by
  simp [num32]

theorem toNat_r16 (r : Reg) (s : State) : (r16 r s).toNat = num16 s r.num.toNat := by
  rw [num16, num32_num, r16, r32, BitVec.extractLsb'_toNat, Nat.shiftRight_zero]

theorem toNat_signExtend_byte (d : Byte) {w : Nat} (hw : 8 ≤ w) : (d.signExtend w).toNat = sext8 (2 ^ w) d.toNat := by
  have hlt : d.toNat < 2 ^ w := d.isLt.trans_le (Nat.pow_le_pow_right (by decide) hw)
  rw [BitVec.toNat_signExtend, BitVec.msb_eq_decide, sext8, BitVec.toNat_setWidth, Nat.mod_eq_of_lt hlt]
  by_cases h : d.toNat < 128 <;> simp [h]

/-- The number that a 16-bit form adds to its register sum, from the bytes at the displacement's place (30 R59, R61). -/
theorem toNat_disp16 (d : Disp16) (rest : List Byte) :
    (disp16 d).toNat = if d.mode.toNat = 0 then 0
      else if d.mode.toNat = 1 then sext8 (2 ^ 16) (leNumber 1 (d.encode ++ rest))
      else leNumber 2 (d.encode ++ rest) := by
  cases d with
  | absent => rfl
  | d8 d => simpa [disp16, Disp16.mode, Disp16.encode, leNumber] using toNat_signExtend_byte d (w := 16) (by decide)
  | d16 d => exact ((leNumber_length_append (bytes16 d) rest).trans (leNumber_bytes16 d)).symm

/-- The same for a 32-bit form (30 R60, R61). -/
theorem toNat_disp32 (d : Disp32) (rest : List Byte) :
    (disp32 d).toNat = if d.mode.toNat = 0 then 0
      else if d.mode.toNat = 1 then sext8 (2 ^ 32) (leNumber 1 (d.encode ++ rest))
      else leNumber 4 (d.encode ++ rest) := by
  cases d with
  | absent => rfl
  | d8 d => simpa [disp32, Disp32.mode, Disp32.encode, leNumber] using toNat_signExtend_byte d (w := 32) (by decide)
  | d32 d => exact ((leNumber_length_append (bytes32 d) rest).trans (leNumber_bytes32 d)).symm

theorem leNumber_bytes16_append (d : Word16) (rest : List Byte) : leNumber 2 (bytes16 d ++ rest) = d.toNat :=
  (leNumber_length_append (bytes16 d) rest).trans (leNumber_bytes16 d)

theorem leNumber_bytes32_append (d : Word32) (rest : List Byte) : leNumber 4 (bytes32 d ++ rest) = d.toNat :=
  (leNumber_length_append (bytes32 d) rest).trans (leNumber_bytes32 d)

/-! ## Register sums and default segments -/

theorem toNat_base16 (b : Base16) (s : State) :
    (base16 b s).toNat = ((regs16 b.num.toNat).map (num16 s)).sum % 2 ^ 16 := by
  have hlt : ∀ i, num16 s i < 65536 := fun i => Nat.mod_lt _ (by decide)
  cases b <;> simp [base16, regs16, Base16.num, toNat_r16, Reg.num, Nat.mod_eq_of_lt (hlt _)]

theorem baseSeg16_eq (b : Base16) : baseSeg16 b = if 5 ∈ regs16 b.num.toNat then .ss else .ds := by
  cases b <;> rfl

theorem baseSeg32_eq (r : Reg) : baseSeg32 r = if r.num.toNat = 4 ∨ r.num.toNat = 5 then .ss else .ds := by
  cases r <;> rfl

/-- The scaled index, none for the number 4 (R113, R114). -/
theorem toNat_scaledIndex (ss : Scale) (index : Reg) (s : State) : (scaledIndex ss index s).toNat =
    if index.num.toNat = 4 then 0 else num32 s index.num.toNat * 2 ^ ss.num.toNat % 2 ^ 32 := by
  have hesp : index = .esp ↔ index.num.toNat = 4 := by cases index <;> decide
  have hscale : (scaleFactor ss).toNat = 2 ^ ss.num.toNat := by cases ss <;> rfl
  unfold scaledIndex
  simp only [hesp]
  split
  · rfl
  · rw [BitVec.toNat_mul, hscale, num32_num]

/-! ## Offsets -/

theorem toNat_offset_abs16 (d : Word16) (s : State) : (offset (.abs16 d) s).toNat = d.toNat % 2 ^ 16 := by
  simp [offset]
  omega

theorem toNat_offset_based16 (b : Base16) (d : Disp16) (s : State) : (offset (.based16 b d) s).toNat =
    (((regs16 b.num.toNat).map (num16 s)).sum + (disp16 d).toNat) % 2 ^ 16 := by
  have hsum : (base16 b s + disp16 d).toNat < 2 ^ 32 := (base16 b s + disp16 d).isLt.trans (by decide)
  rw [offset, BitVec.zeroExtend, BitVec.toNat_setWidth, Nat.mod_eq_of_lt hsum, BitVec.toNat_add, toNat_base16,
    Nat.mod_add_mod]

theorem toNat_offset_based32 (b : Reg) (d : Disp32) (s : State) :
    (offset (.based32 b d) s).toNat = (num32 s b.num.toNat + (disp32 d).toNat) % 2 ^ 32 := by
  rw [offset, BitVec.toNat_add, num32_num]

theorem toNat_offset_sib (ss : Scale) (index b : Reg) (d : Disp32) (s : State) :
    (offset (.sib ss index b d) s).toNat =
      (num32 s b.num.toNat + (scaledIndex ss index s).toNat + (disp32 d).toNat) % 2 ^ 32 := by
  rw [offset, BitVec.toNat_add, BitVec.toNat_add, num32_num, Nat.mod_add_mod]

theorem toNat_offset_sibAbs (ss : Scale) (index : Reg) (d : Word32) (s : State) :
    (offset (.sibAbs ss index d) s).toNat = ((scaledIndex ss index s).toNat + d.toNat) % 2 ^ 32 := by
  rw [offset, BitVec.toNat_add]

/-! ## The three tables -/

section
variable {md : BitVec 2} {r : BitVec 3} {bs rest : List Byte} {f : MemForm} (s : State) (ss index base : Nat)

theorem decodeMem16_place (h : decodeMem16 md r bs = .ok (f, rest)) (h3 : md ≠ 3#2) :
    placeOf (.mem f) s = decodeRM .s16 md.toNat r.toNat ss index base (leNumber 1 bs) (leNumber 2 bs) (leNumber 4 bs)
      s.dec.segovr s := by
  have hmd : md.toNat ≠ 3 := fun e => h3 (BitVec.eq_of_toNat_eq e)
  rcases decodeMem16_ok h h3 with ⟨rfl, rfl, d, rfl, rfl⟩ | ⟨hrow, d, rfl, rfl, rfl⟩
  · simp [decodeRM, placeOf, toNat_offset_abs16, segment, defaultSeg, leNumber_bytes16_append]
  · have hrow : ¬ (d.mode.toNat = 0 ∧ r.toNat = 6) := by simpa [← BitVec.toNat_inj] using hrow
    simp only [decodeRM, hmd, hrow, if_false, placeOf, toNat_offset_based16, segment, defaultSeg, baseSeg16_eq,
      Base16.num_ofNum, ← toNat_disp16]

theorem decodeMem32_place (h : decodeMem32 md r bs = .ok (f, rest)) (h3 : md ≠ 3#2) (h4 : r ≠ 4#3) :
    placeOf (.mem f) s = decodeRM .s32 md.toNat r.toNat ss index base (leNumber 1 bs) (leNumber 2 bs) (leNumber 4 bs)
      s.dec.segovr s := by
  have hmd : md.toNat ≠ 3 := fun e => h3 (BitVec.eq_of_toNat_eq e)
  have hr : r.toNat ≠ 4 := fun e => h4 (BitVec.eq_of_toNat_eq e)
  rcases decodeMem32_ok h h3 with ⟨rfl, rfl, d, rfl, rfl⟩ | ⟨hrow, d, rfl, rfl, rfl⟩
  · simp [decodeRM, placeOf, offset, segment, defaultSeg, leNumber_bytes32_append]
  · have hrow : ¬ (d.mode.toNat = 0 ∧ r.toNat = 5) := by simpa [← BitVec.toNat_inj] using hrow
    simp only [decodeRM, hmd, hrow, hr, ne_eq, not_false_eq_true, if_true, if_false, placeOf, toNat_offset_based32,
      segment, defaultSeg, baseSeg32_eq, Reg.num_ofNum, ← toNat_disp32]

theorem decodeSib_place {sb : Byte} (h : decodeSib md sb bs = .ok (f, rest)) (h3 : md ≠ 3#2) :
    placeOf (.mem f) s = decodeRM .s32 md.toNat 4 (topField sb).toNat (midField sb).toNat (lowField sb).toNat
      (leNumber 1 bs) (leNumber 2 bs) (leNumber 4 bs) s.dec.segovr s := by
  have hmd : md.toNat ≠ 3 := fun e => h3 (BitVec.eq_of_toNat_eq e)
  have hindex := toNat_scaledIndex (Scale.ofNum (topField sb)) (Reg.ofNum (midField sb)) s
  rw [Reg.num_ofNum, Scale.num_ofNum] at hindex
  rcases decodeSib_ok h h3 with ⟨rfl, h5, d, rfl, rfl⟩ | ⟨hrow, d, rfl, rfl, rfl⟩
  · simp [decodeRM, placeOf, toNat_offset_sibAbs, hindex, segment, defaultSeg, leNumber_bytes32_append, h5]
  · have hrow : ¬ ((lowField sb).toNat = 5 ∧ d.mode.toNat = 0) := by
      simpa [← BitVec.toNat_inj, -toNat_lowField, and_comm] using hrow
    simp only [decodeRM, hmd, hrow, ne_eq, not_true_eq_false, if_false, placeOf, toNat_offset_sib, hindex, segment,
      defaultSeg, baseSeg32_eq, Reg.num_ofNum, ← toNat_disp32]

end

/-- Settles O10: each row `decodeRm_ok` lists, by the table it stands in. -/
theorem operandIsThatOfDecodeRM : Obligations.OperandIsThatOfDecodeRM := by
  intro ad m bs rm rest s h sib disp
  rw [← toNat_topField, ← toNat_lowField]
  rcases decodeRm_ok h with ⟨h3, rfl, -⟩ | ⟨h3, rfl, f, rfl, hf⟩ | ⟨h3, rfl, h4, sb, q, f, rfl, rfl, hf⟩ |
    ⟨h3, rfl, h4, f, rfl, hf⟩
  · simp [decodeRM, placeOf, h3]
  · exact decodeMem16_place s _ _ _ hf h3
  · have hdisp : disp = q := by simp [disp, sibFollows, h3, h4]
    have hplace := decodeSib_place s hf h3
    rw [toNat_topField sb, toNat_midField, toNat_lowField] at hplace
    rwa [hdisp, h4]
  · have hdisp : disp = bs := by simp [disp, sibFollows, h4]
    rw [hdisp]
    exact decodeMem32_place s _ _ _ hf h3 h4

end Sys2Proof.Machine
end

section
/-! A step, the instruction's prefixes included (spec 30_encoding.md R65, 40_prefixes.md R97, 20_memory.md R36,
60_exceptions.md R150, R153). -/

namespace Sys2Proof.Machine

open Sys2Proof.Claims

/-! ## The decoding of the next unit -/

/-- The bytes `tail` can be fetched from the state's next unit on. -/
def FetchesNext (tail : List Byte) (s : State) : Prop :=
  ∀ j b, tail[j]? = some b → fetchByte (s.dec.n + j) s = .next b

section
variable {s : State} {tail : List Byte}

/-- Bytes that decode, whatever follows them, are the next unit. -/
theorem decodeNext_of_ok {i : Instr} (hf : FetchesNext tail s) (hlen : tail.length ≤ Config.maxUnit)
    (hd : ∀ rest, decode (opsize s) (adsize s) (tail ++ rest) = .ok (i, rest)) :
    decodeNext s = .next (i, tail.length) := by
  obtain ⟨rest, hrun⟩ := fetchRun_of_fetches Config.maxUnit s.dec.n tail hf hlen
  simp [decodeNext, hrun, hd]

theorem decodeNext_of_undefined {b : Byte} (hf : FetchesNext tail s) (hu : UndefinedOpcode b tail) :
    decodeNext s = .refused (.unknownOpcode s.ip b) := by
  have hlen : tail.length ≤ Config.maxUnit := by
    rcases hu with ⟨rfl, -⟩ | ⟨-, b2, rfl⟩ | ⟨-, m, -, rfl⟩ <;> simp [Config.maxUnit]
  obtain ⟨rest, hrun⟩ := fetchRun_of_fetches Config.maxUnit s.dec.n tail hf hlen
  simp [decodeNext, hrun, decode_of_undefinedOpcode hu, refuse]

/-- Bytes that decode as cut short, where the byte after them cannot be fetched: the step stops as its fetch does. -/
theorem decodeNext_of_truncated (hf : FetchesNext tail s)
    (hd : decode (opsize s) (adsize s) tail = .error .truncated)
    (hstop : ∀ b, fetchByte (s.dec.n + tail.length) s ≠ .next b) :
    decodeNext s = andThen (fetchByte (s.dec.n + tail.length) s) fun _ => raise s .instructionTooLong := by
  have hrun := fetchRun_of_stop Config.maxUnit s.dec.n tail hf (decode_truncated_length hd) hstop
  simp [decodeNext, hrun, hd]

end

theorem fetchByte_of_past_top {k : Nat} {s : State} (h : topOffset s.env.defAddrSize < s.ip.toNat + k) :
    fetchByte k s = .refused (.offsetWrap s.ip) := by
  simp [fetchByte, Nat.not_le.mpr h, refuse]

theorem fetchByte_of_denied {k : Nat} {s : State} (h : s.ip.toNat + k ≤ topOffset s.env.defAddrSize)
    (hdenied : segAdmit .cs (s.ip + BitVec.ofNat 32 k) 1 .fetch s = false) :
    fetchByte k s = .fault (.accessNotAdmitted s.ip .cs (s.ip + BitVec.ofNat 32 k) 1 .fetch) := by
  simp [fetchByte, h, checkAdmit_of_denied hdenied]

/-! ## The tests of the length -/

theorem checkLength_of_overlong {s : State} (h : Config.maxLen < s.dec.n) :
    checkLength s = .fault (.instructionTooLong s.ip) := by
  simp [checkLength, h, raise]

theorem checkLength_of_past_top {s : State} (h : s.dec.n ≤ Config.maxLen)
    (htop : topOffset s.env.defAddrSize < s.ip.toNat + s.dec.n) : checkLength s = .refused (.offsetWrap s.ip) := by
  simp [checkLength, Nat.not_lt.mpr h, Nat.not_le.mpr htop, refuse]

/-! ## A prefixed carrier form -/

/-- What the next unit makes of the prefix loop. -/
theorem runInstr_carrier {rounds k : Nat} {s : State} {i : Instr} (hnext : decodeNext s = .next (i, k))
    (hi : i.isPrefix = false) :
    runInstr exec (rounds + 1) s = andThen (checkLength (consume k s)) fun _ => exec i (consume k s) := by
  simp [runInstr, hnext, hi]

theorem runInstr_prefix {rounds k : Nat} {s : State} {i : Instr} (hnext : decodeNext s = .next (i, k))
    (hi : i.isPrefix = true) :
    runInstr exec (rounds + 1) s = andThen (exec i (consume k s)) (runInstr exec rounds) := by
  simp [runInstr, hnext, hi]

section
variable {s : State} {ps : List Instr} (he : ended s = false) (hp : ∀ p ∈ ps, p.isPrefix = true)
  (hnd : (ps.map prefixGroup).Nodup)
include he hp hnd

/-- The state after a run of prefixes at the instruction's front. -/
theorem step_after_prefixes_eq {tail : List Byte} (hf : Fetches (withPrefixes ps tail) s) :
    ∃ rounds, step s = runInstr exec (rounds + 1) { s with dec := recordOf ps ps.length } ∧
      FetchesNext tail { s with dec := recordOf ps ps.length } :=
  have h := step_after_prefixes he hp hnd hf
  ⟨_, h.1, h.2.2⟩

/-- A step over prefixes of different groups and a carrier form: its length is tested, and it runs in the state whose
record holds the prefixes and the length. -/
theorem step_prefixed {i : Instr} (hi : i.isPrefix = false) :
    let u : State := { s with dec := recordOf ps 0 }
    let bs := instrBytes (opsize u) ps i
    let w : State := { s with dec := recordOf ps bs.length }
    i.wf (opsize u) (adsize u) = true → Fetches bs s → step s = andThen (checkLength w) fun _ => exec i w := by
  intro u bs w hwf hf
  have hbs : bs = withPrefixes ps (encode (opsize u) i) := instrBytes_eq hp _ i
  rw [hbs] at hf
  obtain ⟨rounds, hstep, hnext⟩ := step_after_prefixes_eq he hp hnd hf
  have hne : i ≠ .repe := by rintro rfl; cases hi
  have hdec := decodeNext_of_ok hnext (length_encode_le _ i) fun rest =>
    decodeOfEncodeIsInstruction (opsize u) (adsize u) i rest hwf hne
  rw [hstep, runInstr_carrier hdec hi]
  have hw : consume (encode (opsize u) i).length { s with dec := recordOf ps ps.length } = w := by
    simp [w, hbs, length_withPrefixes hp, consume, recordOf]
  rw [hw]

end

/-- Settles O12: `step_prefixed`, the length within both limits. -/
theorem prefixedInstructionIsOneStep : Obligations.PrefixedInstructionIsOneStep := by
  intro s ps i he hp hnd hi u bs hwf hlen htop hf
  rw [step_prefixed he hp hnd hi hwf hf, (checkLength_next_iff _ ()).mpr ⟨hlen, htop⟩]
  rfl

/-- Settles O13: `step_prefixed`, the length above `MaxLen`. -/
theorem overlongInstructionFaults : Obligations.OverlongInstructionFaults := by
  intro s ps i he hp hnd hi u bs hwf hlen hf
  rw [step_prefixed he hp hnd hi hwf hf, checkLength_of_overlong (Nat.lt_of_lt_of_eq hlen rfl)]
  rfl

/-- Settles O16: `step_prefixed`, the length within `MaxLen` and the end past the top. -/
theorem instructionPastTopIsRefused : Obligations.InstructionPastTopIsRefused := by
  intro s ps i he hp hnd hi u bs hwf hlen htop hf
  rw [step_prefixed he hp hnd hi hwf hf, checkLength_of_past_top hlen htop]
  rfl

/-! ## Where the decoding stops the step -/

/-- Settles O15: after the prefixes the decoder asks for the byte after `tail`, whose fetch stops the step. -/
theorem fetchStops : Obligations.FetchStops := by
  intro s ps tail he hp hnd u bs off hd hf
  obtain ⟨rounds, hstep, hnext⟩ := step_after_prefixes_eq he hp hnd hf
  have hlen : bs.length = ps.length + tail.length := length_withPrefixes hp tail
  have hdecode := decodeNext_of_truncated hnext hd
  simp only [off, hlen]
  rw [hstep, runInstr]
  constructor
  · intro htop
    have hfetch := fetchByte_of_past_top (s := { s with dec := recordOf ps ps.length }) htop
    rw [hdecode fun b hb => by cases hfetch.symm.trans hb]
    exact congrArg (andThen · _) (congrArg (andThen · _) hfetch)
  · intro htop hdenied
    have hfetch := fetchByte_of_denied (s := { s with dec := recordOf ps ps.length }) htop hdenied
    rw [hdecode fun b hb => by cases hfetch.symm.trans hb]
    exact congrArg (andThen · _) (congrArg (andThen · _) hfetch)

/-- Settles O17: after the prefixes the decoder finds the opcode undefined. -/
theorem unknownOpcodeStepIsRefused : Obligations.UnknownOpcodeStepIsRefused := by
  intro s ps b tail he hp hnd hu hf
  obtain ⟨rounds, hstep, hnext⟩ := step_after_prefixes_eq he hp hnd hf
  rw [hstep, runInstr, decodeNext_of_undefined hnext hu]
  rfl

theorem exists_prefixGroup {p : Instr} (hp : p.isPrefix = true) : ∃ g, prefixGroup p = some g := by
  revert hp
  cases p <;> simp [Instr.isPrefix, prefixGroup]

theorem groupFree_recordOf {ps : List Instr} (hp : ∀ p ∈ ps, p.isPrefix = true) {g n : Nat}
    (hg : some g ∈ ps.map prefixGroup) : groupFree (recordOf ps n) g = false := by
  rw [recordOf, groupFree_setN, groupFree_foldl hp, decide_eq_false (not_not_intro hg), Bool.and_false]

/-- A prefix byte is a unit of its own, whatever follows it; what is decoded has its group. -/
theorem decodeNext_of_prefix {p : Instr} (hp : p.isPrefix = true) {s : State} (hf : FetchesNext (encode .s16 p) s) :
    ∃ p', decodeNext s = .next (p', 1) ∧ p'.isPrefix = true ∧ prefixGroup p' = prefixGroup p := by
  obtain ⟨p', hd, hp', hg, -⟩ := decode_prefix hp (opsize s) .s16 (adsize s) []
  have hnext := decodeNext_of_ok hf (length_encode_le _ p) fun rest => by
    simpa using decode_append_of_ok hd rest
  exact ⟨p', length_encode_prefix hp .s16 ▸ hnext, hp', hg⟩

/-- Settles O18: after the prefixes comes one whose group is not free. -/
theorem secondPrefixStepIsRefused : Obligations.SecondPrefixStepIsRefused := by
  intro s ps q he hp hnd hq hmem hf
  obtain ⟨rounds, hstep, hnext⟩ := step_after_prefixes_eq he hp hnd hf
  obtain ⟨q', hdec, hq', hgroup⟩ := decodeNext_of_prefix hq hnext
  obtain ⟨g, hg⟩ := exists_prefixGroup hq
  have hrefused : exec q' (consume 1 { s with dec := recordOf ps ps.length }) = .refused (.redundantPrefix s.ip) :=
    exec_prefix_refused (hgroup.trans hg) _ (groupFree_recordOf hp (hg ▸ hmem))
  rw [hstep, runInstr_prefix hdec hq', hrefused]
  rfl

/-! ## The first unit -/

/-- Settles O11: the record is empty at the first unit, so the sizes are the defaults. -/
theorem stepRunsDecodedInstruction : Obligations.StepRunsDecodedInstruction := by
  intro s i rest he hd n
  have hrun : fetchRun Config.maxUnit 0 (beginInstr s) = fetchRun Config.maxUnit 0 s := fetchRun_congr rfl rfl rfl _ _
  have hnext : decodeNext (beginInstr s) = .next (i, n) := by
    have hd' : decode (opsize (beginInstr s)) (adsize (beginInstr s)) (fetchRun Config.maxUnit 0 s) =
        .ok (i, rest) := hd
    simp [decodeNext, DecodeRecord.empty, hrun, hd', n]
  have hstep : step s = runInstr exec (14 + 1) (beginInstr s) := by simp [step, stepWith, he, Config.maxLen]
  have hcount : consume n (beginInstr s) = { s with dec := { DecodeRecord.empty with n := n } } := by
    simp [consume, beginInstr, DecodeRecord.empty]
  constructor
  · intro hi hlen htop
    have hlength := (checkLength_next_iff (consume n (beginInstr s)) ()).mpr (by rw [hcount]; exact ⟨hlen, htop⟩)
    rw [hstep, runInstr_carrier hnext hi, hlength, hcount]
    rfl
  · intro hi
    rw [hstep, runInstr_prefix hnext hi, hcount]

/-- Settles O14: at `END` the step is the state itself. -/
theorem stepStaysAtEnd : Obligations.StepStaysAtEnd := by
  intro s h
  have he : ended s = true := beq_iff_eq.mpr h
  simp [step, stepWith, he]

end Sys2Proof.Machine
end

section
/-! When a prefix is recorded, two prefixes in either order, a second one of a group, and prefixes before a carrier
form (spec 40_prefixes.md sections 2 to 5, 42_carrier_instructions.md R143). -/

namespace Sys2Proof.Machine

open Sys2Proof.Claims

/-! ## Each prefix is recorded -/

/-- A prefix goes on exactly where its group is free and the length allows another byte, and then it is recorded. -/
theorem exec_prefix_next_iff {p : Instr} (hp : p.isPrefix = true) (s t : State) :
    exec p s = .next t ↔ (∀ g, prefixGroup p = some g → groupFree s.dec g = true) ∧ s.dec.n < Config.maxLen ∧
      t = { s with dec := recorded s.dec p } := by
  constructor
  · intro h
    obtain ⟨-, -, -, hn⟩ := exec_prefix_cases hp h
    have hfree : ∀ g, prefixGroup p = some g → groupFree s.dec g = true := by
      intro g hg
      by_contra hf
      rw [exec_prefix_refused hg s (Bool.eq_false_iff.mpr hf)] at h
      cases h
    exact ⟨hfree, hn, Host.Outcome.next.inj (h.symm.trans (exec_prefix hp s hfree hn))⟩
  · rintro ⟨hfree, hn, rfl⟩
    exact exec_prefix hp s hfree hn

/-- A prefix of a free group is recorded, where the length allows another byte. -/
theorem exec_prefix_of_group {p : Instr} {g : Nat} {s : State} (hp : p.isPrefix = true) (hg : prefixGroup p = some g)
    (hfree : groupFree s.dec g = true) (hn : s.dec.n < Config.maxLen) :
    exec p s = .next { s with dec := recorded s.dec p } :=
  exec_prefix hp s (fun g' hg' => by rwa [← Option.some.inj (hg.symm.trans hg')]) hn

/-- Settles O33: the group of the repeat prefixes is free. -/
theorem repeatPrefixesAreRecorded : Obligations.RepeatPrefixesAreRecorded := by
  refine ⟨fun _ _ _ => ⟨rfl, rfl⟩, fun s hfree hn => ?_⟩
  have hgroup : groupFree s.dec 0 = true := by simp [groupFree, hfree]
  exact ⟨exec_prefix_of_group (p := .rep) rfl rfl hgroup hn, exec_prefix_of_group (p := .repe) rfl rfl hgroup hn,
    exec_prefix_of_group (p := .repne) rfl rfl hgroup hn⟩

/-- Settles O34: the group of LOCK is free. -/
theorem lockPrefixIsRecorded : Obligations.LockPrefixIsRecorded := by
  refine ⟨fun _ _ _ => rfl, fun s hfree hn => ?_⟩
  have hgroup : groupFree s.dec 1 = true := by simp [groupFree, hfree]
  exact exec_prefix_of_group (p := .lock) rfl rfl hgroup hn

/-- Settles O36: the override's group is free, and each size reads its own flag. -/
theorem sizeOverridesAreRecorded : Obligations.SizeOverridesAreRecorded := by
  refine ⟨fun _ _ _ => ⟨rfl, rfl⟩, fun s hfree hn => ?_, fun s hfree hn => ?_⟩
  · have hgroup : groupFree s.dec 3 = true := by simp [groupFree, hfree]
    exact ⟨_, exec_prefix_of_group (p := .opsize) rfl rfl hgroup hn, rfl, by simp [opsize, hfree], rfl, rfl⟩
  · have hgroup : groupFree s.dec 4 = true := by simp [groupFree, hfree]
    exact ⟨_, exec_prefix_of_group (p := .adsize) rfl rfl hgroup hn, rfl, by simp [adsize, hfree], rfl, rfl⟩

/-! ## Two prefixes -/

/-- Settles O37: the first prefix takes the group. -/
theorem secondPrefixOfGroupIsRefused : Obligations.SecondPrefixOfGroupIsRefused := by
  intro p q s t k hp hpq h
  obtain ⟨-, -, rfl⟩ := (exec_prefix_next_iff hp s t).mp h
  obtain ⟨g, hg⟩ := exists_prefixGroup hp
  refine exec_prefix_refused (hpq ▸ hg) _ ?_
  rw [consume, groupFree_setN, groupFree_recorded _ _ hp, decide_eq_false (not_not_intro hg), Bool.and_false]

/-- Prefixes of different groups write different fields of the record. -/
theorem recorded_comm {p q : Instr} (hp : p.isPrefix = true) (hq : q.isPrefix = true)
    (hpq : prefixGroup p ≠ prefixGroup q) (d : DecodeRecord) :
    recorded (recorded d p) q = recorded (recorded d q) p := by
  cases p
  case rep | repe | repne | lock | cs | ss | ds | es | fs | gs | opsize | adsize =>
    cases q <;> simp [Instr.isPrefix, prefixGroup, recorded] at hq hpq ⊢
  all_goals cases hp

/-- A prefix that could be recorded can be after one of another group, where the length still allows it. -/
theorem exec_second_prefix {p q : Instr} {s t u : State} {k : Nat} (hp : p.isPrefix = true) (hq : q.isPrefix = true)
    (hpq : prefixGroup p ≠ prefixGroup q) (ht : exec p s = .next t) (hu : exec q s = .next u) (hk : s.dec.n + k < 15) :
    exec q (consume k t) = .next { s with dec := { recorded (recorded s.dec p) q with n := s.dec.n + k } } := by
  obtain ⟨-, -, rfl⟩ := (exec_prefix_next_iff hp s t).mp ht
  obtain ⟨hfree, -, -⟩ := (exec_prefix_next_iff hq s u).mp hu
  have hn : (recorded s.dec p).n = s.dec.n := by cases p <;> rfl
  refine (exec_prefix_next_iff hq _ _).mpr ⟨fun g hg => ?_, by simpa [hn, Config.maxLen] using hk,
    by simp [consume, hn]⟩
  rw [consume, groupFree_setN, groupFree_recorded _ _ hp, hfree g hg, decide_eq_true (hg ▸ hpq), Bool.and_self]

/-- Settles O38: each is recorded after the other, to records that are one by `recorded_comm`. -/
theorem prefixOrderDoesNotMatter : Obligations.PrefixOrderDoesNotMatter := by
  intro p q s t u k hp hq hpq ht hu hk
  refine ⟨_, exec_second_prefix hp hq hpq ht hu hk, ?_⟩
  rw [exec_second_prefix hq hp hpq.symm hu ht hk, recorded_comm hp hq hpq]

/-! ## Prefixes before a carrier form -/

/-- Every carrier form begins with the refusal of a repeat prefix and of LOCK. -/
theorem exec_eq_carrier {i : Instr} (hi : i.isPrefix = false) (s : State) : ∃ body, exec i s = carrier s body := by
  cases i <;> simp only [Instr.isPrefix, Bool.true_eq_false] at hi <;> exact ⟨_, rfl⟩

/-- Settles O39: `exec_eq_carrier`. -/
theorem repeatOrLockOnCarrierIsRefused : Obligations.RepeatOrLockOnCarrierIsRefused := by
  intro i s hi
  obtain ⟨body, hbody⟩ := exec_eq_carrier hi s
  rw [hbody]
  exact ⟨fun hrep => by simp [carrier, Option.isSome_iff_ne_none.mpr hrep, refuse],
    fun hrep hlock => by simp [carrier, hrep, hlock, refuse]⟩

/-- Settles O40: only `segment` reads the override, and only an access to memory asks for it. -/
theorem overrideWithoutOperandIsIgnored : Obligations.OverrideWithoutOperandIsIgnored := by
  intro i s g hi hmem
  cases i <;> simp only [Instr.isPrefix, Bool.true_eq_false] at hi
  case movRm8R8 rm _ | movRmR rm _ | movR8Rm8 _ rm | movRRm _ rm | movRm8Imm rm _ | movRmImm rm _ =>
    cases rm with
    | reg r => rfl
    | mem m => cases hmem
  case lea reg rm => cases rm <;> rfl
  all_goals rfl

end Sys2Proof.Machine
end

section
/-! What every step keeps: the parameters, the code that was fetched, the canonical forms, and no decoder's record (spec
10_state.md section 7, 20_memory.md section 8, 70_reset_and_hazards.md R177). -/

namespace Sys2Proof.Machine

open Sys2Proof.Claims Sys2Proof.Safety

/-- All the state's parts that a carrier instruction treats alike, whichever it is: the parameters stay, the record is
discarded, its own bytes join the fetched ones, memory stays canonical, and no byte that is code changes. -/
structure CarrierKeeps (s t : State) : Prop where
  env : t.env = s.env
  dec : t.dec = DecodeRecord.empty
  fetched : t.fetched = noteFetched s.dec.n (linear .cs s.ip s) s.fetched
  wf : Memory.wf s.mem = true → Memory.wf t.mem = true
  code : ∀ a : Word32, isCode a s = true → memByte t.mem a.toNat = memByte s.mem a.toNat
  beyond : ∀ b, Config.addressSpace ≤ b → memByte t.mem b = memByte s.mem b

theorem exec_carrierKeeps {i : Instr} {s t : State} (hi : i.isPrefix = false) (h : exec i s = .next t) :
    CarrierKeeps s t := by
  obtain ⟨-, -, u, tgt, rfl, rfl | ⟨w, r, v, rfl⟩ | ⟨n, a, v, hcode, rfl⟩⟩ := exec_carrier_cases hi h
  · exact ⟨rfl, rfl, rfl, id, fun _ _ => rfl, fun _ _ => rfl⟩
  · exact ⟨rfl, rfl, rfl, id, fun _ _ => rfl, fun _ _ => rfl⟩
  · refine ⟨rfl, rfl, rfl, Memory.wf_writeBytes n a v s.mem, fun b hb => ?_, fun b hb => ?_⟩
    · refine memByte_writeBytes_other n a v s.mem _ fun k hk heq => ?_
      have hsame : b = a + BitVec.ofNat 32 k := BitVec.eq_of_toNat_eq heq
      rw [hsame, hcode k hk] at hb
      cases hb
    · exact memByte_writeBytes_other n a v s.mem b fun k _ heq => absurd (a + BitVec.ofNat 32 k).isLt (heq ▸ hb.not_gt)

/-- A step that goes on, not at `END`, keeps what its carrier instruction keeps, its record and length apart. -/
theorem step_carrierKeeps {s t : State} (h : step s = .next t) :
    t = s ∨ ∃ d, CarrierKeeps { s with dec := d } t := by
  rcases step_cases h with ⟨-, rfl⟩ | ⟨-, i, d, hi, hexec, -⟩
  · exact .inl rfl
  · exact .inr ⟨d, exec_carrierKeeps hi hexec⟩

/-! ## Parameters and canonical forms -/

/-- Settles O21: a step that ran an instruction keeps what `CarrierKeeps` says. -/
theorem stepKeepsParameters : Obligations.StepKeepsParameters := by
  intro s t h
  rcases step_carrierKeeps h with rfl | ⟨d, hk⟩
  · rfl
  · exact hk.env

/-- Settles O19: memory's form by `CarrierKeeps`, the fetched addresses' by the laws of `noteFetched`. -/
theorem stepKeepsMachineInv : Obligations.StepKeepsMachineInv := by
  intro s t hs h
  rcases step_carrierKeeps h with rfl | ⟨d, hk⟩
  · exact hs
  · obtain ⟨hmem, hrising, hbound, -⟩ := hs
    refine ⟨hk.wf hmem, hk.fetched ▸ risingFrom_noteFetched _ _ _ hrising, fun a ha => ?_, hk.dec⟩
    rw [hk.fetched, mem_noteFetched] at ha
    rcases ha with ⟨k, -, rfl⟩ | ha
    · exact BitVec.isLt _
    · exact hbound a ha

/-- Settles O20: nothing is listed or fetched yet. -/
theorem resetMeetsMachineInv : Obligations.ResetMeetsMachineInv :=
  ⟨Memory.wf_nil, rfl, nofun, rfl⟩

/-! ## Fetched code -/

theorem CarrierKeeps.keeps_fetched {s t : State} (hk : CarrierKeeps s t) {a : Nat} (ha : a ∈ s.fetched) :
    a ∈ t.fetched ∧ memByte t.mem a = memByte s.mem a := by
  refine ⟨hk.fetched ▸ (mem_noteFetched _ _ _ _).mpr (.inr ha), ?_⟩
  rcases Nat.lt_or_ge a Config.addressSpace with hlt | hge
  · have hword : (BitVec.ofNat 32 a).toNat = a := (BitVec.toNat_ofNat a 32).trans (Nat.mod_eq_of_lt hlt)
    exact hword ▸ hk.code (BitVec.ofNat 32 a) (isCode_of_fetched (hword.symm ▸ ha))
  · exact hk.beyond a hge

theorem step_keeps_fetched {s t : State} (h : step s = .next t) {a : Nat} (ha : a ∈ s.fetched) :
    a ∈ t.fetched ∧ memByte t.mem a = memByte s.mem a := by
  rcases step_carrierKeeps h with rfl | ⟨d, hk⟩
  · exact ⟨ha, rfl⟩
  · exact hk.keeps_fetched ha

/-- A run of `k + 1` steps is a step and a run of `k` steps. -/
theorem run_succ_next {M : Host.Core} {k : Nat} {s t : M.State} (h : M.run (k + 1) s = .next t) :
    ∃ u, M.step s = .next u ∧ M.run k u = .next t := by
  rw [Host.Core.run] at h
  split at h
  · exact ⟨_, ‹_›, h⟩
  · cases h
  · cases h

/-- Settles O22: by induction on the number of steps, each by `step_keeps_fetched`. -/
theorem runKeepsFetchedCode : Obligations.RunKeepsFetchedCode := by
  intro k
  induction k with
  | zero =>
    intro s t h a ha
    obtain rfl : s = t := Host.Outcome.next.inj h
    exact ⟨ha, rfl⟩
  | succ k ih =>
    intro s t h a ha
    obtain ⟨u, hstep, hrun⟩ := run_succ_next (M := core) h
    obtain ⟨hmem, hbyte⟩ := step_keeps_fetched hstep ha
    exact (ih u t hrun a hmem).imp_right (·.trans hbyte)

/-- Settles O23: an instruction's bytes lie in its window, so they are code. -/
theorem stepKeepsItsOwnBytes : Obligations.StepKeepsItsOwnBytes := by
  intro s i t hi h hn k hk
  have hkeeps := exec_carrierKeeps hi h
  exact ⟨hkeeps.fetched ▸ (mem_noteFetched _ _ _ _).mpr (.inl ⟨k, hk, rfl⟩),
    hkeeps.code _ (isCode_of_window (hk.trans_le hn))⟩

/-! ## The decoder's record -/

/-- Settles O24: an instruction begins by discarding the record it finds, and ends with the empty one. -/
theorem decodeRecordDoesNotSurvive : Obligations.DecodeRecordDoesNotSurvive := by
  refine fun s he => ⟨fun d => ?_, fun t h => ?_⟩
  · have he' : ended { s with dec := d } = false := he
    simp only [step, stepWith, he, he', Bool.false_eq_true, if_false]
    rfl
  · rcases step_cases h with ⟨hend, -⟩ | ⟨-, i, d, hi, hexec, -⟩
    · rw [he] at hend
      cases hend
    · exact (exec_carrierKeeps hi hexec).dec

end Sys2Proof.Machine
end

section
/-! The history of fetched addresses enters no value (spec 10_state.md R21, 90_conflicts.md C16): what goes on with some
history goes on without any, to the same values. -/

namespace Sys2Proof.Machine

open Sys2Proof.Claims

/-- The state with no address noted as fetched. -/
def forget (s : State) : State := { s with fetched := [] }

/-- Where `f` goes on from a state, it goes on without the history too, to a state that differs in the history alone. -/
def IgnoresHistory (f : State → Res State) : Prop :=
  ∀ s t, f s = .next t → ∃ u, f (forget s) = .next u ∧ forget u = forget t

theorem isCode_forget {a : Word32} {s : State} (h : isCode a s = false) : isCode a (forget s) = false := by
  simp only [isCode, Bool.or_eq_false_iff] at h ⊢
  exact ⟨h.1, rfl⟩

/-! ## What a carrier instruction does -/

section
variable {s t : State}

theorem carrier_next_forget {body body' : Res State} (h : carrier s body = .next t)
    (hbody : body = .next t → ∃ u, body' = .next u ∧ forget u = forget t) :
    ∃ u, carrier (forget s) body' = .next u ∧ forget u = forget t := by
  obtain ⟨hrep, hlock, h⟩ := (carrier_next_iff _ _ _).mp h
  rw [carrier_of_plain (s := forget s) hrep hlock]
  exact hbody h

/-- NOP and the jumps: `x` and `y` are what they answer with and without the history. -/
theorem jump_forget {x y : State} (h : carrier s (.next x) = .next t) (hxy : forget y = forget x) :
    ∃ u, carrier (forget s) (.next y) = .next u ∧ forget u = forget t :=
  carrier_next_forget h fun hx => ⟨y, rfl, by rw [hxy, Host.Outcome.next.inj hx]⟩

theorem loadValue_forget {w : Width} {reg : Reg} {value : Res Word32} (h : loadValue w reg value s = .next t) :
    ∃ u, loadValue w reg value (forget s) = .next u ∧ forget u = forget t := by
  refine carrier_next_forget h fun h => ?_
  obtain ⟨v, rfl, h⟩ := (andThen_next_iff _ _ _).mp h
  obtain rfl := Host.Outcome.next.inj h
  exact ⟨_, rfl, rfl⟩

/-- A store is allowed with less code to run into. -/
theorem writeRm_forget {w : Width} {rm : Rm} {v : Word32} (h : writeRm w rm v s = .next t) :
    writeRm w rm v (forget s) = .next (forget t) := by
  rcases writeRm_cases h with ⟨r, rfl, rfl⟩ | ⟨m, rfl, hrange, hcode, hadmit, rfl⟩
  · rfl
  · exact (memWrite_next_iff _ _ _ _ _ _ _).mpr ⟨hrange, fun k hk => isCode_forget (hcode k hk), hadmit, rfl⟩

theorem storeValue_forget {w : Width} {rm : Rm} {v : Word32} (h : storeValue w rm v s = .next t) :
    ∃ u, storeValue w rm v (forget s) = .next u ∧ forget u = forget t := by
  refine carrier_next_forget h fun h => ?_
  obtain ⟨x, hx, h⟩ := (andThen_next_iff _ _ _).mp h
  obtain rfl := Host.Outcome.next.inj h
  rw [writeRm_forget hx]
  exact ⟨_, rfl, rfl⟩

end

theorem exec_carrier_ignoresHistory {i : Instr} (hi : i.isPrefix = false) : IgnoresHistory (exec i) := by
  intro s t h
  cases i
  case nop | jmp | loop => exact jump_forget h rfl
  case movR8Rm8 | movRRm | lea => exact loadValue_forget h
  case movR8Imm reg imm => exact loadValue_forget (value := .next (imm.zeroExtend 32)) h
  case movRImm reg imm => exact loadValue_forget (value := .next imm) h
  case movRm8R8 | movRmR | movRm8Imm | movRmImm => exact storeValue_forget h
  all_goals cases hi

/-- A prefix changes the record alone, and reads nothing else. -/
theorem exec_prefix_forget {p : Instr} (hp : p.isPrefix = true) {s t : State} (h : exec p s = .next t) :
    exec p (forget s) = .next (forget t) := by
  obtain ⟨hfree, hn, rfl⟩ := (exec_prefix_next_iff hp s t).mp h
  exact (exec_prefix_next_iff hp (forget s) _).mpr ⟨hfree, hn, rfl⟩

/-! ## What a step does -/

theorem decodeNext_forget (s : State) : decodeNext (forget s) = decodeNext s := by
  have hrun : fetchRun Config.maxUnit (forget s).dec.n (forget s) = fetchRun Config.maxUnit s.dec.n s :=
    fetchRun_congr rfl rfl rfl _ _
  simp only [decodeNext, hrun]
  rfl

theorem runInstr_ignoresHistory (rounds : Nat) : IgnoresHistory (runInstr exec rounds) := by
  induction rounds with
  | zero =>
    intro s t h
    simp [runInstr] at h
  | succ rounds ih =>
    intro s t h
    rw [runInstr, andThen_next_iff] at h
    obtain ⟨⟨i, k⟩, hnext, h⟩ := h
    have hnext := (decodeNext_forget s).trans hnext
    cases hi : i.isPrefix
    · simp only [hi, Bool.false_eq_true, if_false, andThen_next_iff] at h
      obtain ⟨x, hlen, h⟩ := h
      rw [runInstr_carrier hnext hi, show checkLength (consume k (forget s)) = .next x from hlen]
      exact exec_carrier_ignoresHistory hi _ t h
    · simp only [hi, if_true, andThen_next_iff] at h
      obtain ⟨x, hx, h⟩ := h
      rw [runInstr_prefix hnext hi, show exec i (consume k (forget s)) = .next (forget x) from exec_prefix_forget hi hx]
      exact ih x t h

theorem step_ignoresHistory : IgnoresHistory step := by
  intro s t h
  unfold step stepWith at h ⊢
  split at h
  case isTrue he =>
    obtain rfl := Host.Outcome.next.inj h
    exact ⟨forget s, if_pos he, rfl⟩
  case isFalse he =>
    rw [if_neg (show ¬ ended (forget s) = true from he)]
    exact runInstr_ignoresHistory _ _ t h

/-- Settles O25: both runs go on without the history, to one state. -/
theorem fetchHistoryEntersNoValue : Obligations.FetchHistoryEntersNoValue := by
  intro s t u history hs hh
  obtain ⟨x, hx, hxt⟩ := step_ignoresHistory s t hs
  obtain ⟨y, hy, hyu⟩ := step_ignoresHistory _ u hh
  obtain rfl : x = y := Host.Outcome.next.inj (hx.symm.trans hy)
  have hsame : forget u = forget t := hyu.symm.trans hxt
  exact ⟨congrArg (·.regs) hsame, congrArg (·.mem) hsame, congrArg (·.ip) hsame, congrArg (·.env) hsame⟩

end Sys2Proof.Machine
end

section
/-! Every fault and refusal records the `ip` of the instruction's first byte (spec 60_exceptions.md R150, R151). -/

namespace Sys2Proof.Machine

open Sys2Proof.Claims

/-- Where the computation stops, the reason records this `ip`. -/
def StopsAt {α : Type} (ip : Word32) : Res α → Prop
  | .next _ => True
  | .fault f => faultIp f = ip
  | .refused r => refusalIp r = some ip

theorem stopsAt_andThen {α β : Type} {ip : Word32} {x : Res α} {f : α → Res β} (hx : StopsAt ip x)
    (hf : ∀ a, x = .next a → StopsAt ip (f a)) : StopsAt ip (andThen x f) := by
  cases x with
  | next a => exact hf a rfl
  | fault _ => exact hx
  | refused _ => exact hx

/-! ## The shared operations -/

section
variable (s : State)

theorem stopsAt_checkWrap (ad : Size) (off : Word32) (n : Nat) : StopsAt s.ip (checkWrap ad off n s) := by
  unfold checkWrap
  split
  · trivial
  · rfl

theorem stopsAt_checkAdmit (seg : Seg) (off : Word32) (n : Nat) (kind : Access) :
    StopsAt s.ip (checkAdmit seg off n kind s) := by
  unfold checkAdmit
  split
  · trivial
  · rfl

theorem stopsAt_checkNoCode (a : Word32) (n : Nat) : StopsAt s.ip (checkNoCode a n s) := by
  unfold checkNoCode
  split
  · rfl
  · trivial

theorem stopsAt_readRm (w : Width) (rm : Rm) : StopsAt s.ip (readRm w rm s) := by
  cases rm with
  | reg r => trivial
  | mem m =>
    exact stopsAt_andThen (stopsAt_checkWrap s _ _ _) fun _ _ =>
      stopsAt_andThen (stopsAt_checkAdmit s _ _ _ _) fun _ _ => trivial

theorem stopsAt_writeRm (w : Width) (rm : Rm) (v : Word32) : StopsAt s.ip (writeRm w rm v s) := by
  cases rm with
  | reg r => trivial
  | mem m =>
    exact stopsAt_andThen (stopsAt_checkWrap s _ _ _) fun _ _ =>
      stopsAt_andThen (stopsAt_checkNoCode s _ _) fun _ _ =>
        stopsAt_andThen (stopsAt_checkAdmit s _ _ _ _) fun _ _ => trivial

theorem stopsAt_leaOffset (rm : Rm) : StopsAt s.ip (leaOffset rm s) := by
  cases rm with
  | reg r => rfl
  | mem m => trivial

theorem stopsAt_recordPrefix (already : Bool) (d : DecodeRecord) : StopsAt s.ip (recordPrefix already d s) := by
  unfold recordPrefix
  split
  · rfl
  · split
    · rfl
    · trivial

theorem stopsAt_carrier {body : Res State} (h : StopsAt s.ip body) : StopsAt s.ip (carrier s body) := by
  unfold carrier
  split
  · rfl
  · split
    · rfl
    · exact h

theorem stopsAt_loadValue (w : Width) (reg : Reg) {value : Res Word32} (h : StopsAt s.ip value) :
    StopsAt s.ip (loadValue w reg value s) :=
  stopsAt_carrier s (stopsAt_andThen h fun _ _ => trivial)

theorem stopsAt_storeValue (w : Width) (rm : Rm) (v : Word32) : StopsAt s.ip (storeValue w rm v s) :=
  stopsAt_carrier s (stopsAt_andThen (stopsAt_writeRm s w rm v) fun _ _ => trivial)

theorem stopsAt_exec (i : Instr) : StopsAt s.ip (exec i s) := by
  cases i
  case nop | jmp | loop => exact stopsAt_carrier s trivial
  case movR8Rm8 reg rm | movRRm reg rm => exact stopsAt_loadValue s _ reg (stopsAt_readRm s _ rm)
  case lea reg rm => exact stopsAt_loadValue s _ reg (stopsAt_leaOffset s rm)
  case movR8Imm reg imm => exact stopsAt_loadValue s _ reg (value := .next (imm.zeroExtend 32)) trivial
  case movRImm reg imm => exact stopsAt_loadValue s _ reg (value := .next imm) trivial
  case movRm8R8 rm _ | movRmR rm _ | movRm8Imm rm _ | movRmImm rm _ => exact stopsAt_storeValue s _ rm _
  all_goals exact stopsAt_recordPrefix s _ _

/-! ## The fetch of an instruction -/

theorem stopsAt_fetchByte (k : Nat) : StopsAt s.ip (fetchByte k s) := by
  unfold fetchByte
  split
  · exact stopsAt_andThen (stopsAt_checkAdmit s _ _ _ _) fun _ _ => trivial
  · rfl

theorem stopsAt_decodeNext : StopsAt s.ip (decodeNext s) := by
  unfold decodeNext
  dsimp only
  split
  · trivial
  · rfl
  · exact stopsAt_andThen (stopsAt_fetchByte s _) fun _ _ => rfl

theorem stopsAt_checkLength : StopsAt s.ip (checkLength s) := by
  unfold checkLength
  split
  · rfl
  · split
    · trivial
    · rfl

end

/-- The prefix loop, for a prefix leaves `ip` as it is. -/
theorem stopsAt_runInstr (rounds : Nat) (s : State) : StopsAt s.ip (runInstr exec rounds s) := by
  induction rounds generalizing s with
  | zero => rfl
  | succ rounds ih =>
    refine stopsAt_andThen (stopsAt_decodeNext s) fun p _ => ?_
    split
    case isTrue hp =>
      refine stopsAt_andThen (stopsAt_exec _ p.1) fun t ht => ?_
      obtain ⟨d, rfl, -⟩ := exec_prefix_cases hp ht
      exact ih _
    case isFalse => exact stopsAt_andThen (stopsAt_checkLength _) fun _ _ => stopsAt_exec _ p.1

theorem stopsAt_step (s : State) : StopsAt s.ip (step s) := by
  unfold step stepWith
  split
  · trivial
  · exact stopsAt_runInstr _ (beginInstr s)

/-- Settles O26: `stopsAt_step`, read off for a fault and for a refusal. -/
theorem stopRecordsInstructionPointer : Obligations.StopRecordsInstructionPointer := by
  intro s
  have h := stopsAt_step s
  exact ⟨fun f hf => by rwa [hf] at h, fun r hr => by rwa [hr] at h⟩

end Sys2Proof.Machine
end

section
/-! Registers, memory bytes and operand addresses as the spec's numbers (spec 10_state.md section 1, 20_memory.md
sections 1, 2 and 8). -/

namespace Sys2Proof.Machine

open Sys2Proof.Claims

/-- Settles O27: each view is that of its home by definition, and a write does what `viewHolds_writeReg` says. -/
theorem registerNamesAreViews : Obligations.RegisterNamesAreViews :=
  ⟨fun _ _ => rfl, fun _ => ⟨rfl, rfl, rfl, rfl, rfl, rfl, rfl, rfl⟩, viewHolds_writeReg⟩

/-! ## Little-endian reads and stores -/

/-- The number whose digits to the base 256 are `digit 0` to `digit (n - 1)`, least significant first. -/
def littleEndian (n : Nat) (digit : Nat → Nat) : Nat := ((List.range n).map fun k => digit k * 256 ^ k).sum

theorem littleEndian_succ (n : Nat) (digit : Nat → Nat) :
    littleEndian (n + 1) digit = digit 0 + 256 * littleEndian n fun k => digit (k + 1) := by
  simp only [littleEndian, List.range_succ_eq_map, List.map_cons, List.map_map, List.sum_cons, pow_zero, mul_one,
    ← List.sum_map_mul_left]
  congr 3
  funext k
  simp only [Function.comp_apply, Nat.succ_eq_add_one, pow_succ]
  ring

theorem littleEndian_congr {n : Nat} {f g : Nat → Nat} (h : ∀ k < n, f k = g k) :
    littleEndian n f = littleEndian n g :=
  congrArg List.sum (List.map_congr_left fun k hk => by rw [h k (List.mem_range.mp hk)])

theorem littleEndian_lt {n : Nat} {digit : Nat → Nat} (h : ∀ k, digit k < 256) : littleEndian n digit < 256 ^ n := by
  induction n generalizing digit with
  | zero => simp [littleEndian]
  | succ n ih =>
    have hrest := ih fun k => h (k + 1)
    have hfirst := h 0
    rw [littleEndian_succ, pow_succ]
    omega

/-- The digits of a number make up the number. -/
theorem littleEndian_digits (n v : Nat) : littleEndian n (fun k => v / 256 ^ k % 256) = v % 256 ^ n := by
  induction n generalizing v with
  | zero => simp [littleEndian, Nat.mod_one]
  | succ n ih =>
    have hdigit : ∀ k, v / 256 ^ (k + 1) % 256 = v / 256 / 256 ^ k % 256 := fun k => by
      rw [pow_succ', Nat.div_div_eq_div_mul]
    rw [littleEndian_succ]
    simp only [hdigit, ih, pow_zero, Nat.div_one]
    rw [pow_succ', Nat.mod_mul]

/-- One more byte at the front, where all fit in 32 bits. -/
theorem toNat_cons_byte (b : Byte) (x : Word32) (hx : x.toNat < 256 ^ 3) :
    (b.zeroExtend 32 ||| x <<< 8).toNat = b.toNat + 256 * x.toNat := by
  have hshift : (x <<< 8).toNat = 2 ^ 8 * x.toNat := by
    rw [BitVec.toNat_shiftLeft, Nat.shiftLeft_eq, Nat.mul_comm, Nat.mod_eq_of_lt (by omega)]
  have hb : (b.zeroExtend 32).toNat = b.toNat := by
    rw [BitVec.zeroExtend, BitVec.toNat_setWidth, Nat.mod_eq_of_lt (b.isLt.trans (by decide))]
  rw [BitVec.toNat_or, hshift, hb, Nat.or_comm, ← Nat.two_pow_add_eq_or_of_lt b.isLt, Nat.add_comm]

theorem toNat_readBytes {n : Nat} (hn : n ≤ 4) (a : Word32) (m : List Host.Cell) :
    (readBytes n a m).toNat = littleEndian n fun k => (memByte m (a + BitVec.ofNat 32 k).toNat).toNat := by
  induction n generalizing a with
  | zero => rfl
  | succ n ih =>
    have hrest := ih (Nat.le_of_succ_le hn) (a + 1)
    have hlt : (readBytes n (a + 1) m).toNat < 256 ^ 3 := by
      rw [hrest]
      exact (littleEndian_lt fun k => BitVec.isLt _).trans_le
        (Nat.pow_le_pow_right (by decide) (Nat.le_of_succ_le_succ hn))
    rw [readBytes, toNat_cons_byte _ _ hlt, hrest, littleEndian_succ]
    simp only [add_one_add_ofNat, BitVec.add_zero]

/-- Settles O28: reads by `toNat_readBytes`, stores by the laws of `writeBytes`. -/
theorem memoryIsLittleEndian : Obligations.MemoryIsLittleEndian :=
  ⟨fun _ a m hn => toNat_readBytes hn a m, fun n a v s hn =>
    ⟨fun _ hk => memByte_writeBytes_stored (hn.trans (by decide)) a v s.mem hk,
      fun b hb => memByte_writeBytes_other n a v s.mem b hb⟩⟩

/-- The stored bytes of a value, read back, are its low bytes. -/
theorem toNat_readBytes_writeBytes {n : Nat} (hn : n ≤ 4) (a v : Word32) (m : List Host.Cell) :
    (readBytes n a (writeBytes n a v m)).toNat = v.toNat % 256 ^ n := by
  rw [toNat_readBytes hn, ← littleEndian_digits]
  refine littleEndian_congr fun k hk => ?_
  rw [memByte_writeBytes_stored (hn.trans (by decide)) a v m hk, BitVec.toNat_setWidth, BitVec.toNat_ushiftRight,
    Nat.shiftRight_eq_div_pow, pow_mul]
  simp only [Nat.reducePow]

theorem Width.bytes_le_four (w : Width) : w.bytes ≤ 4 := by cases w <;> decide

/-- Settles O29: the store's range is the read's, and `toNat_readBytes_writeBytes` gives the value. -/
theorem storedValueReadsBack : Obligations.StoredValueReadsBack := by
  intro seg ad off v w s t h hadmit
  obtain ⟨hrange, -, -, rfl⟩ := (memWrite_next_iff _ _ _ _ _ _ _).mp h
  exact ⟨_, (memRead_next_iff _ _ _ _ _ _).mpr ⟨hrange, hadmit, rfl⟩,
    toNat_readBytes_writeBytes (Width.bytes_le_four w) _ v s.mem⟩

/-! ## Operand addresses and code -/

/-- Settles O32: `segment` is the override, else the default, and `linear` adds modulo 2^32. -/
theorem operandAddressUsesSegment : Obligations.OperandAddressUsesSegment := by
  refine fun m s => ⟨fun g hg => ?_, fun hnone => ?_⟩
  · rw [operandAddress, linear, segment_of_segovr hg, BitVec.toNat_add]
  · have hseg : segment m s = defaultSeg m := by simp [segment, hnone]
    rw [operandAddress, linear, hseg, BitVec.toNat_add]

/-- Settles O55: an address is in the window exactly when it is so far from the window's first. -/
theorem codeIsWindowOrFetched : Obligations.CodeIsWindowOrFetched := by
  intro a s
  constructor
  · intro h
    rw [isCode, Bool.or_eq_true, decide_eq_true_eq, List.contains_iff_mem] at h
    refine h.imp_left fun hlt => ⟨_, hlt, ?_⟩
    rw [BitVec.ofNat_toNat, BitVec.setWidth_eq, add_sub_cancel]
  · rintro (⟨k, hk, rfl⟩ | hmem)
    · exact isCode_of_window hk
    · exact isCode_of_fetched hmem

end Sys2Proof.Machine
end

section
/-! Where loads and stores stop, and what the carrier instructions leave unchanged (spec 60_exceptions.md R153,
20_memory.md R32, R39, 42_carrier_instructions.md). -/

namespace Sys2Proof.Machine

open Sys2Proof.Claims

/-! ## Accesses that stop before the admission -/

section
variable {w : Width} {m : MemForm} {s : State}

theorem readRm_of_past_top (h : ¬ InRange w.bytes m s) : readRm w (.mem m) s = .refused (.offsetWrap s.ip) := by
  have hwrap : checkWrap (formSize m) (offset m s) w.bytes s = .refused (.offsetWrap s.ip) := if_neg h
  rw [readRm, memRead, hwrap]
  rfl

theorem writeRm_of_past_top (h : ¬ InRange w.bytes m s) (v : Word32) :
    writeRm w (.mem m) v s = .refused (.offsetWrap s.ip) := by
  have hwrap : checkWrap (formSize m) (offset m s) w.bytes s = .refused (.offsetWrap s.ip) := if_neg h
  rw [writeRm, memWrite, hwrap]
  rfl

theorem writeRm_into_code (hrange : InRange w.bytes m s) (h : ¬ NoCode w.bytes m s) (v : Word32) :
    writeRm w (.mem m) v s = .refused (.storeIntoCode s.ip) := by
  have hcode : checkNoCode (linear (segment m s) (offset m s) s) w.bytes s = .refused (.storeIntoCode s.ip) :=
    if_pos (by simpa [NoCode, operandAddress] using h)
  rw [writeRm, memWrite, (checkWrap_next_iff _ _ _ _ ()).mpr hrange, andThen_next, hcode]
  rfl

end

/-- Settles O53: both loads are `loadValue` of what the read answers. -/
theorem loadStopsInOrder : Obligations.LoadStopsInOrder := by
  intro reg m s hplain p hp
  have hload : exec p.1 s = loadValue p.2 reg (readRm p.2 (.mem m) s) s := by
    simp only [List.mem_cons, List.not_mem_nil, or_false] at hp
    rcases hp with rfl | rfl <;> rfl
  rw [hload, loadValue, carrier_eq_body hplain]
  refine ⟨fun h => ?_, fun hrange hdenied => ?_⟩
  · rw [readRm_of_past_top h]
    rfl
  · rw [readRm_of_denied ⟨hplain, hrange, hdenied⟩]
    rfl

/-- The four stores of O54 and O57 are `storeValue` of some value at their width. -/
theorem exec_store_eq {reg : Reg} {m : MemForm} {imm8 : Byte} {imm : Word32} {s : State} {p : Instr × Width}
    (hp : p ∈ [(Instr.movRm8R8 (.mem m) reg, Width.w8), (Instr.movRm8Imm (.mem m) imm8, Width.w8),
      (Instr.movRmR (.mem m) reg, (opsize s).width), (Instr.movRmImm (.mem m) imm, (opsize s).width)]) :
    ∃ v, exec p.1 s = storeValue p.2 (.mem m) v s := by
  simp only [List.mem_cons, List.not_mem_nil, or_false] at hp
  rcases hp with rfl | rfl | rfl | rfl <;> exact ⟨_, rfl⟩

/-- Settles O54: the four stores are `storeValue`, which stops as the write does. -/
theorem storeStopsInOrder : Obligations.StoreStopsInOrder := by
  intro reg m imm8 imm s hplain p hp
  obtain ⟨v, hstore⟩ := exec_store_eq hp
  rw [hstore]
  refine ⟨fun h => ?_, fun hrange h => ?_, fun hrange hcode hdenied => ?_⟩
  · rw [storeValue, carrier_eq_body hplain, writeRm_of_past_top h]
    rfl
  · rw [storeValue, carrier_eq_body hplain, writeRm_into_code hrange h]
    rfl
  · exact storeValue_faults ⟨hplain, hrange, hcode, hdenied⟩ v

/-! ## Frames -/

section
variable {w : Width} {s t : State}

theorem loadValue_keeps {reg : Reg} {value : Res Word32} (h : loadValue w reg value s = .next t) :
    t.mem = s.mem ∧ t.env = s.env := by
  obtain ⟨-, -, h⟩ := (carrier_next_iff _ _ _).mp h
  obtain ⟨v, -, h⟩ := (andThen_next_iff _ _ _).mp h
  obtain rfl := Host.Outcome.next.inj h
  exact ⟨rfl, rfl⟩

theorem storeValue_next {rm : Rm} {v : Word32} (h : storeValue w rm v s = .next t) :
    ∃ u, writeRm w rm v s = .next u ∧ t = retire u := by
  obtain ⟨-, -, h⟩ := (carrier_next_iff _ _ _).mp h
  obtain ⟨u, hu, h⟩ := (andThen_next_iff _ _ _).mp h
  exact ⟨u, hu, (Host.Outcome.next.inj h).symm⟩

theorem storeValue_reg_keeps {r : Reg} {v : Word32} (h : storeValue w (.reg r) v s = .next t) :
    t.mem = s.mem ∧ t.env = s.env := by
  obtain ⟨u, hu, rfl⟩ := storeValue_next h
  obtain rfl := Host.Outcome.next.inj hu
  exact ⟨rfl, rfl⟩

/-- A store to memory changes memory alone before the instruction ends. -/
theorem storeValue_mem_next {m : MemForm} {v : Word32} (h : storeValue w (.mem m) v s = .next t) :
    t = retire { s with mem := writeBytes w.bytes (operandAddress m s) v s.mem } := by
  obtain ⟨u, hu, rfl⟩ := storeValue_next h
  obtain ⟨-, -, -, rfl⟩ := (memWrite_next_iff _ _ _ _ _ _ _).mp hu
  rfl

end

/-- Settles O57: `storeValue_mem_next`, and the bytes outside the stored ones read as before. -/
theorem storesChangeOnlyTheOperand : Obligations.StoresChangeOnlyTheOperand := by
  intro reg m imm8 imm s t p hp h
  obtain ⟨v, hstore⟩ := exec_store_eq hp
  obtain rfl := storeValue_mem_next (hstore ▸ h)
  exact ⟨fun _ => rfl, rfl, fun b hb => memByte_writeBytes_other p.2.bytes _ v s.mem b hb⟩

theorem exec_keeps_memory {i : Instr} {s t : State} (hi : storesMemory i = false) (h : exec i s = .next t) :
    t.mem = s.mem ∧ t.env = s.env := by
  have hprefix : i.isPrefix = true → t.mem = s.mem ∧ t.env = s.env := fun hp => by
    obtain ⟨d, rfl, -⟩ := exec_prefix_cases hp h
    exact ⟨rfl, rfl⟩
  have hcarrier : ∀ x : State, carrier s (.next x) = .next t → t = x := fun x hx =>
    (Host.Outcome.next.inj ((carrier_next_iff _ _ _).mp hx).2.2).symm
  cases i
  case nop | jmp | loop =>
    obtain rfl := hcarrier _ h
    exact ⟨rfl, rfl⟩
  case movR8Rm8 | movRRm | lea => exact loadValue_keeps h
  case movR8Imm reg imm => exact loadValue_keeps (value := .next (imm.zeroExtend 32)) h
  case movRImm reg imm => exact loadValue_keeps (value := .next imm) h
  case movRm8R8 rm _ | movRmR rm _ | movRm8Imm rm _ | movRmImm rm _ =>
    cases rm with
    | reg r => exact storeValue_reg_keeps h
    | mem m => cases hi
  all_goals exact hprefix rfl

/-- Settles O56: `exec_keeps_memory`. -/
theorem instructionsThatDoNotStoreKeepMemory : Obligations.InstructionsThatDoNotStoreKeepMemory := by
  intro i s t hi h
  obtain ⟨hmem, henv⟩ := exec_keeps_memory hi h
  exact ⟨fun a => by rw [hmem], henv⟩

end Sys2Proof.Machine
end
